-- ==== Sys2Proof/Word.lean ====
section
/-! DEFINITION. The words and the smallest value sets of the spec (00_scope.md R10, R12). -/

namespace Sys2Proof

/-- A byte on the wire or in the Receive Buffer (R12 `Byte`). -/
abbrev Byte := BitVec 8

/-- The 64-bit command word (R76). -/
abbrev CommandWord := BitVec 64

/-- The 16-bit `VALUE` field of a response (R90). -/
abbrev Value := BitVec 16

/-- The 32-bit response word (R90). -/
abbrev Response := BitVec 32

/-- A line or latch level (R12 `Level`). -/
inductive Level where
  | low
  | high
  deriving DecidableEq, Repr, Inhabited

/-- The two pins of the block, named by symbol and never by number (R8, R12 `Pin`). -/
inductive Pin where
  | sda
  | scl
  deriving DecidableEq, Repr

end Sys2Proof
end

