-- ==== Sys2Proof/Syntax.lean ====
section
/-! DEFINITION. The 19 commands (30_encoding.md R78), the packet that carries one (R75, R88), the six formats (R77). -/

namespace Sys2Proof

/-- A command with its operands: one constructor per row of spec/opcode_table.json, operands as R92 lists them. -/
inductive Instr where
  /-- `INITIALIZE` (R110). -/
  | initializeBus
  /-- `BEGIN_TRANSMISSION address` (R130). -/
  | beginTransmission (address : BitVec 7)
  /-- `WRITE byte` (R131). -/
  | write (byte : Byte)
  /-- `WRITE_BYTES count, b0, ..., b(count-1)` (R132). -/
  | writeBytes (count : BitVec 8) (payload : List Byte)
  /-- `END_TRANSMISSION send_stop` (R133). -/
  | endTransmission (sendStop : Bool)
  /-- `REQUEST_FROM address, quantity, internal_address, internal_address_size, send_stop` (R134). -/
  | requestFrom (address : BitVec 7) (quantity : BitVec 8) (internalAddress : BitVec 32)
      (internalAddressSize : BitVec 8) (sendStop : Bool)
  /-- `AVAILABLE` (R150). -/
  | available
  /-- `READ` (R151). -/
  | read
  /-- `PEEK` (R152). -/
  | peek
  /-- `FLUSH` (R153). -/
  | flush
  /-- `ENG_START addr_byte` (R111). -/
  | engStart (addrByte : Byte)
  /-- `ENG_REP_START addr_byte` (R112). -/
  | engRepStart (addrByte : Byte)
  /-- `ENG_START_WAIT addr_byte` (R113). -/
  | engStartWait (addrByte : Byte)
  /-- `ENG_STOP` (R114). -/
  | engStop
  /-- `ENG_WRITE byte` (R115). -/
  | engWrite (byte : Byte)
  /-- `ENG_READ last` (R116). -/
  | engRead (last : Bool)
  /-- `PIN_RELEASE pin` (R100). -/
  | pinRelease (pin : Pin)
  /-- `PIN_DRIVE_LOW pin` (R101). -/
  | pinDriveLow (pin : Pin)
  /-- `PIN_READ pin` (R102). -/
  | pinRead (pin : Pin)
  deriving DecidableEq, Repr

/-- A row of the opcode map (R78), without its operands. -/
inductive Opcode where
  | initializeBus | beginTransmission | write | writeBytes | endTransmission | requestFrom
  | available | read | peek | flush
  | engStart | engRepStart | engStartWait | engStop | engWrite | engRead
  | pinRelease | pinDriveLow | pinRead
  deriving DecidableEq, Repr

/-- The six formats of R77. -/
inductive Format where
  /-- no operand -/
  | none
  /-- `A` -/
  | address
  /-- `Q` -/
  | byte
  /-- `S` -/
  | flag
  /-- `S`, `A`, `Q`, `Z`, `I` -/
  | request
  /-- `P` -/
  | pin
  deriving DecidableEq, Repr

/-- A command packet (R75): the word and, for `WRITE_BYTES`, the payload bytes in order (R88). -/
structure Packet where
  word : CommandWord
  payload : List Byte
  deriving DecidableEq, Repr

/-- Why a packet is illegal: the three cases of R80. -/
inductive Illegal where
  /-- (a) `OP` is none of the 19 values. -/
  | undefinedOpcode
  /-- (b) a reserved bit of the format is 1. -/
  | reservedBit
  /-- (c) the payload length is not what R88 requires. -/
  | payloadLength
  deriving DecidableEq, Repr

/-- An operand of the assembler (R92): a number, or a pin by its symbol. -/
inductive AsmOperand where
  | num (n : Nat)
  | pin (p : Pin)
  deriving DecidableEq, Repr

end Sys2Proof
end

