-- ==== Sys2Proof/Decode.lean ====
section
/-! DEFINITION. The encoding tables (30_encoding.md R76 to R78), the decoder (R79), the encoder written from the same
tables, and the reading of an opcode-table word as a packet. -/

namespace Sys2Proof

/-! ### The opcode map (R78) and the formats (R77) -/

/-- The 19 rows in the table's order. -/
def Opcode.all : List Opcode :=
  [.initializeBus, .beginTransmission, .write, .writeBytes, .endTransmission, .requestFrom,
   .available, .read, .peek, .flush,
   .engStart, .engRepStart, .engStartWait, .engStop, .engWrite, .engRead,
   .pinRelease, .pinDriveLow, .pinRead]

/-- The `OP` column of R78. -/
def Opcode.code : Opcode → BitVec 8
  | .initializeBus => 0x01
  | .beginTransmission => 0x02
  | .write => 0x03
  | .writeBytes => 0x04
  | .endTransmission => 0x05
  | .requestFrom => 0x06
  | .available => 0x07
  | .read => 0x08
  | .peek => 0x09
  | .flush => 0x0A
  | .engStart => 0x20
  | .engRepStart => 0x21
  | .engStartWait => 0x22
  | .engStop => 0x23
  | .engWrite => 0x24
  | .engRead => 0x25
  | .pinRelease => 0x30
  | .pinDriveLow => 0x31
  | .pinRead => 0x32

/-- The format column of R78. -/
def Opcode.format : Opcode → Format
  | .initializeBus | .available | .read | .peek | .flush | .engStop => .none
  | .beginTransmission => .address
  | .write | .writeBytes | .engStart | .engRepStart | .engStartWait | .engWrite => .byte
  | .endTransmission | .engRead => .flag
  | .requestFrom => .request
  | .pinRelease | .pinDriveLow | .pinRead => .pin

/-- The `mask` column of R77: 1 where the bit is fixed by the row. -/
def Format.mask : Format → CommandWord
  | .none => 0xFFFFFFFFFFFFFFFF
  | .address => 0xFF80FFFFFFFFFFFF
  | .byte => 0xFFFF00FFFFFFFFFF
  | .flag => 0xFF7FFFFFFFFFFFFF
  | .request => 0xFF00000000000000
  | .pin => 0xFFFEFFFFFFFFFFFF

/-- `match` of a row (R77): `OP << 56`, all other bits 0. -/
def Opcode.matchWord (o : Opcode) : CommandWord :=
  o.code.zeroExtend 64 <<< 56

/-- The row whose `OP` is `c`, if there is one (R79). -/
def Opcode.ofCode (c : BitVec 8) : Option Opcode :=
  Opcode.all.find? (fun o => o.code == c)

/-! ### The fields of the command word (R76) -/

/-- `OP = w[63:56]`. -/
def fieldOp (w : CommandWord) : BitVec 8 := w.extractLsb' 56 8

/-- `S = w[55]`. -/
def fieldS (w : CommandWord) : Bool := w.getLsbD 55

/-- `A = w[54:48]`. -/
def fieldA (w : CommandWord) : BitVec 7 := w.extractLsb' 48 7

/-- `P = w[48]`, 0 for `SDA` and 1 for `SCL` (R89). -/
def fieldP (w : CommandWord) : Pin := if w.getLsbD 48 then .scl else .sda

/-- `Q = w[47:40]`. -/
def fieldQ (w : CommandWord) : BitVec 8 := w.extractLsb' 40 8

/-- `Z = w[39:32]`. -/
def fieldZ (w : CommandWord) : BitVec 8 := w.extractLsb' 32 8

/-- `I = w[31:0]`. -/
def fieldI (w : CommandWord) : BitVec 32 := w.extractLsb' 0 32

/-! ### Decoding (R79) -/

/-- How many payload bytes follow a word, told from the word alone (R82): `Q` for `WRITE_BYTES`, none for any other. -/
def payloadLength (w : CommandWord) : Nat :=
  if fieldOp w = Opcode.writeBytes.code then (fieldQ w).toNat else 0

/-- The command of a row with its operand fields taken from the packet (the last line of R79). -/
def Opcode.operands (o : Opcode) (p : Packet) : Instr :=
  match o with
  | .initializeBus => .initializeBus
  | .beginTransmission => .beginTransmission (fieldA p.word)
  | .write => .write (fieldQ p.word)
  | .writeBytes => .writeBytes (fieldQ p.word) p.payload
  | .endTransmission => .endTransmission (fieldS p.word)
  | .requestFrom =>
      .requestFrom (fieldA p.word) (fieldQ p.word) (fieldI p.word) (fieldZ p.word) (fieldS p.word)
  | .available => .available
  | .read => .read
  | .peek => .peek
  | .flush => .flush
  | .engStart => .engStart (fieldQ p.word)
  | .engRepStart => .engRepStart (fieldQ p.word)
  | .engStartWait => .engStartWait (fieldQ p.word)
  | .engStop => .engStop
  | .engWrite => .engWrite (fieldQ p.word)
  | .engRead => .engRead (fieldS p.word)
  | .pinRelease => .pinRelease (fieldP p.word)
  | .pinDriveLow => .pinDriveLow (fieldP p.word)
  | .pinRead => .pinRead (fieldP p.word)

/-- Decoding, a total function on packets (R79): exactly one command, or `Illegal` with the case of R80 that holds. -/
def decode (p : Packet) : Except Illegal Instr :=
  match Opcode.ofCode (fieldOp p.word) with
  | none => .error .undefinedOpcode
  | some o =>
    if p.word &&& o.format.mask ≠ o.matchWord then .error .reservedBit
    else if p.payload.length ≠ payloadLength p.word then .error .payloadLength
    else .ok (o.operands p)

/-! ### Encoding, from the same tables -/

/-- A command word laid out as R76 draws it: `{OP, S, A, Q, Z, I}`. -/
def layoutWord (op : BitVec 8) (s : Bool) (a : BitVec 7) (q z : BitVec 8) (i : BitVec 32) : CommandWord :=
  op ++ BitVec.ofBool s ++ a ++ q ++ z ++ i

/-- The pin selector as the `A` field's bit 0 (R76, R77), the bits above it reserved. -/
def pinField : Pin → BitVec 7
  | .sda => 0
  | .scl => 1

/-- The row of a command. -/
def Instr.opcode : Instr → Opcode
  | .initializeBus => .initializeBus
  | .beginTransmission _ => .beginTransmission
  | .write _ => .write
  | .writeBytes _ _ => .writeBytes
  | .endTransmission _ => .endTransmission
  | .requestFrom _ _ _ _ _ => .requestFrom
  | .available => .available
  | .read => .read
  | .peek => .peek
  | .flush => .flush
  | .engStart _ => .engStart
  | .engRepStart _ => .engRepStart
  | .engStartWait _ => .engStartWait
  | .engStop => .engStop
  | .engWrite _ => .engWrite
  | .engRead _ => .engRead
  | .pinRelease _ => .pinRelease
  | .pinDriveLow _ => .pinDriveLow
  | .pinRead _ => .pinRead

/-- The word of a command: its operands in the fields of its format, every reserved bit 0 (R76, R77, R92). -/
def encodeWord (i : Instr) : CommandWord :=
  let op := i.opcode.code
  match i with
  | .initializeBus => layoutWord op false 0 0 0 0
  | .beginTransmission a => layoutWord op false a 0 0 0
  | .write b => layoutWord op false 0 b 0 0
  | .writeBytes count _ => layoutWord op false 0 count 0 0
  | .endTransmission s => layoutWord op s 0 0 0 0
  | .requestFrom a q i z s => layoutWord op s a q z i
  | .available => layoutWord op false 0 0 0 0
  | .read => layoutWord op false 0 0 0 0
  | .peek => layoutWord op false 0 0 0 0
  | .flush => layoutWord op false 0 0 0 0
  | .engStart b => layoutWord op false 0 b 0 0
  | .engRepStart b => layoutWord op false 0 b 0 0
  | .engStartWait b => layoutWord op false 0 b 0 0
  | .engStop => layoutWord op false 0 0 0 0
  | .engWrite b => layoutWord op false 0 b 0 0
  | .engRead last => layoutWord op last 0 0 0 0
  | .pinRelease p => layoutWord op false (pinField p) 0 0 0
  | .pinDriveLow p => layoutWord op false (pinField p) 0 0 0
  | .pinRead p => layoutWord op false (pinField p) 0 0 0

/-- The payload of a command: the bytes of `WRITE_BYTES`, nothing for any other (R88). -/
def encodePayload : Instr → List Byte
  | .writeBytes _ payload => payload
  | .initializeBus | .beginTransmission _ | .write _ | .endTransmission _ | .requestFrom _ _ _ _ _
  | .available | .read | .peek | .flush | .engStart _ | .engRepStart _ | .engStartWait _ | .engStop
  | .engWrite _ | .engRead _ | .pinRelease _ | .pinDriveLow _ | .pinRead _ => []

/-- The packet of a command. -/
def encode (i : Instr) : Packet where
  word := encodeWord i
  payload := encodePayload i

/-! ### A word of the opcode table as a packet -/

/-- Payload byte `k` of an instruction numbered as the table numbers it: the bits from `64 + 8 k` on. -/
def tablePayloadByte (w k : Nat) : Byte := BitVec.ofNat 8 (w >>> (64 + 8 * k))

/-- The packet of an instruction whose low `nbits` bits are those of `w` and whose bits above them are 0: the word is bits
63 to 0, and the payload is as long as the word asks for, or as long as `nbits` gives if that is longer. DESIGN CHOICE
(log 12): the spec numbers no payload bits. -/
def packetOfTableWord (nbits w : Nat) : Packet :=
  let bits := w % 2 ^ nbits
  let word := BitVec.ofNat 64 bits
  let count := max (payloadLength word) ((nbits - 64 + 7) / 8)
  { word := word, payload := (List.range count).map (tablePayloadByte bits) }

/-- The command the decoder reads from a word of the opcode table. -/
def decodeTableWord (nbits w : Nat) : Option Instr :=
  match decode (packetOfTableWord nbits w) with
  | .ok i => some i
  | .error _ => none

end Sys2Proof
end

