-- ==== Sys2Proof/Config.lean ====
section
/-! DEFINITION. The parameters of an instance (00_scope.md R7 to R10) and the free values, which the spec leaves open. -/

namespace Sys2Proof

/-- The configuration and instance parameters (R7, R8). They are fixed for the life of an instance and no step changes
them (R39). Widths are those of R10. DESIGN CHOICE: State carries them as one field (log 1). -/
structure Config where
  /-- `BUFFER_CAPACITY`, bytes of the Receive Buffer: 1 to 255. -/
  bufferCapacity : BitVec 8
  /-- `DELAY_US`, argument of the full delay. -/
  delayUs : BitVec 16
  /-- `START_WAIT_RETRIES`, bound on the Starts of Start-Wait: 1 to 65535. -/
  startWaitRetries : BitVec 16
  /-- `PULLUP_ASSIST`. -/
  pullupAssist : Bool
  /-- `SDA_PIN`, the platform's identifier of the data pin. -/
  sdaPin : Nat
  /-- `SCL_PIN`, the platform's identifier of the clock pin. -/
  sclPin : Nat
  deriving DecidableEq, Repr

/-- The defaults of R7 and R8. The spec gives the two pins no default: 0 and 1 are a DESIGN CHOICE (log 1). -/
def Config.default : Config where
  bufferCapacity := 32
  delayUs := 4
  startWaitRetries := 5000
  pullupAssist := false
  sdaPin := 0
  sclPin := 1

/-- The parameters lie in the ranges of R7 and R10 and the two pins differ (R8). -/
def Config.wf (c : Config) : Bool :=
  c.bufferCapacity != 0 && c.startWaitRetries != 0 && c.sdaPin != c.sclPin

/-- FREE VALUE (log 4): the level that `read_input` number `n` answers where State lists no answer for it (R56, U6). -/
opaque Config.freeLevel : Nat → Level

/-- FREE VALUE (log 5): draw number `n` of a latch that `set_pin_mode(p, INPUT_PULLUP)` leaves unspecified (R31, U4). -/
opaque Config.freeLatch : Nat → Level

end Sys2Proof
end

