-- ==== Sys2Proof/Machine/State.lean ====
section
/-! DEFINITION. The state of the machine (10_state.md, its table R40), what the world offers it and sees of it, the reasons
a step can stop, and the state after reset (70_reset_and_hazards.md R185). -/

namespace Sys2Proof.Machine

/-- A pin's direction and pull (R12 `Mode`). -/
inductive PinMode where
  | input
  | inputPullup
  | output
  deriving DecidableEq, Repr

/-- The error codes of `last_error` (R12, R160). -/
inductive Err where
  /-- `NONE`, code 0. -/
  | noError
  /-- `DATA_TOO_LONG`, code 1: reserved, written by no rule. -/
  | dataTooLong
  /-- `NACK_ON_ADDRESS`, code 2. -/
  | nackOnAddress
  /-- `NACK_ON_DATA`, code 3. -/
  | nackOnData
  deriving DecidableEq, Repr

/-- The pad state of one pin (R30). -/
structure Pad where
  mode : PinMode
  latch : Level
  deriving DecidableEq, Repr

/-- What a pad does to its line (the table of R33). -/
inductive PadDrive where
  /-- does not drive: the line is the environment's -/
  | floats
  /-- does not drive: applies the platform-internal pull-up -/
  | pullsUp
  /-- pulls the line low -/
  | pullsLow
  /-- drives the line high: forbidden, never reached -/
  | drivesHigh
  deriving DecidableEq, Repr

/-- The platform's global interrupt mask (R34): whether delivery is disabled, and what `mask_interrupts` saved, present
only inside a masked window. -/
structure InterruptMask where
  masked : Bool
  saved : Option Bool
  deriving DecidableEq, Repr

/-- The sequencer (R36): ready, or busy with exactly one command. -/
inductive Sequencer where
  | ready
  | busy
  deriving DecidableEq, Repr

/-- The GPIO events, one constructor per primitive of R14. A read carries the level it was answered (R19). -/
inductive Event where
  | setPinMode (p : Pin) (m : PinMode)
  | writeOutput (p : Pin) (l : Level)
  | readInput (p : Pin) (answer : Level)
  | delayMicroseconds (n : BitVec 16)
  | maskInterrupts
  | unmaskInterrupts
  deriving DecidableEq, Repr

/-- What the host does to the block: offers a packet (R75) or resets it (R185). -/
inductive HostInput where
  | packet (p : Packet)
  | reset
  deriving DecidableEq, Repr

/-- The machine. Registers first, then what the world will still offer, then what the block has emitted. -/
structure State where
  /-- The instance's parameters, which no step changes (R39; log 1). -/
  cfg : Config
  /-- `in_transmission` (R21). -/
  inTransmission : Bool
  /-- `last_error` (R22). -/
  lastError : Err
  /-- `rxbuf[0 .. BUFFER_CAPACITY-1]` (R24). -/
  rxbuf : List Byte
  /-- `rx_cursor` (R25). -/
  rxCursor : BitVec 8
  /-- `rx_valid` (R26). -/
  rxValid : BitVec 8
  /-- `mode[SDA]`, `latch[SDA]` (R30). -/
  sda : Pad
  /-- `mode[SCL]`, `latch[SCL]` (R30). -/
  scl : Pad
  /-- The sequencer (R36, R40). -/
  sequencer : Sequencer
  /-- The platform's interrupt mask (R34). -/
  irq : InterruptMask
  /-- What the host will still do, in order; the block sees only the head (R75; log 6). -/
  offered : List HostInput
  /-- What the environment answers to `read_input`, in order from the first read of the run (R16, R56; log 4). -/
  answers : List Level
  /-- How many `read_input` events have happened: the index of the next answer (log 4). -/
  reads : Nat
  /-- How many unspecified latch values have been drawn (R31; log 5). -/
  latchDraws : Nat
  /-- Every GPIO event so far, oldest first (R14, R16, R66; log 9). -/
  trace : List Event
  /-- Every response word so far, oldest first (R90; log 9). -/
  responses : List Response
  deriving DecidableEq, Repr

/-- Why the machine stops with a fault. -/
inductive Fault where
  /-- Raised by `set_pin_mode(p, OUTPUT)` while `latch[p] = HIGH` (R33, R165, U17). Safe: the spec makes no claim about a
  run that has it, and no run from reset has it (log 10). -/
  | drivenHigh (p : Pin)
  deriving DecidableEq, Repr

/-- Why a step has no meaning. -/
inductive Refusal where
  /-- Raised by exec for a command with no meaning yet; no arm does. Safe. -/
  | notModelled (mnemonic : String)
  /-- Raised by step when the parameters lie outside the ranges of R8 and R10 (U7, U8). Safe: the spec gives such an
  instance no meaning (log 11). -/
  | configOutsideSpec
  deriving DecidableEq, Repr

/-- The state after reset of an instance with parameters `c` (R40, R185). The Receive Buffer's zeros are a DESIGN CHOICE
(log 2), the unmasked platform mask is one too (log 3). -/
def State.resetWith (c : Config) : State where
  cfg := c
  inTransmission := false
  lastError := .noError
  rxbuf := List.replicate c.bufferCapacity.toNat 0
  rxCursor := 0
  rxValid := 0
  sda := { mode := .input, latch := .low }
  scl := { mode := .input, latch := .low }
  sequencer := .ready
  irq := { masked := false, saved := none }
  offered := []
  answers := []
  reads := 0
  latchDraws := 0
  trace := []
  responses := []

/-- The state after reset of the instance with the default parameters (R7, R8, R185). -/
def State.reset : State := State.resetWith Config.default

end Sys2Proof.Machine
end

