-- ==== Sys2Proof/Machine/Ops.lean ====
section
/-! DEFINITION. The shared operations: the six GPIO primitives (00_scope.md R14, 10_state.md R31 to R34), the Receive Buffer
accessors (R24 to R26), delivering a response (30_encoding.md R90), `raise Illegal` (60_exceptions.md R163), accepting a
packet (R75) and the reset event (70_reset_and_hazards.md R185). -/

namespace Sys2Proof.Machine

/-- A procedure of the spec's pseudocode (R13): it runs in the state, returns a value, or stops at the fault of R165. -/
abbrev Run (α : Type) : Type := StateT State (Except Fault) α

/-! ### The pads -/

/-- `mode[p]` and `latch[p]`. -/
def State.pad (s : State) : Pin → Pad
  | .sda => s.sda
  | .scl => s.scl

/-- Replace the pad state of pin `p`. -/
def State.setPad (s : State) (p : Pin) (pad : Pad) : State :=
  match p with
  | .sda => { s with sda := pad }
  | .scl => { s with scl := pad }

/-- What a pad does to its line, as a function of its mode and its latch (the table of R33). -/
def Pad.drive (x : Pad) : PadDrive :=
  match x.mode with
  | .input => .floats
  | .inputPullup => .pullsUp
  | .output =>
    match x.latch with
    | .low => .pullsLow
    | .high => .drivesHigh

/-- Whether a pad leaves its line to the others: released, `Z` (R17, R69). -/
def PadDrive.released : PadDrive → Bool
  | .floats => true
  | .pullsUp => true
  | .pullsLow => false
  | .drivesHigh => false

/-- The level of a line (R55) whose pad does `d`, given whether another device pulls the line low and whether there is an
external pull-up: none where R55 determines no level. No command reads it, since the answers to `read_input` are the
environment's (R56). For `drivesHigh`, which no run reaches, R55 has no case. -/
def lineLevel (d : PadDrive) (pulledLow externalPullup : Bool) : Option Level :=
  match d with
  | .pullsLow => some .low
  | .pullsUp => some (if pulledLow then .low else .high)
  | .floats => if pulledLow then some .low else if externalPullup then some .high else none
  | .drivesHigh => none

/-- Append one event to the trace (R14). -/
def State.emit (s : State) (e : Event) : State := { s with trace := s.trace ++ [e] }

/-! ### The effects of the six primitives on the state -/

/-- `set_pin_mode(p, m)` (R31): the mode is written. After `INPUT_PULLUP` the latch is unspecified and a free value is drawn
for it (log 5). After `INPUT` and `OUTPUT` it is unchanged. -/
def State.afterSetPinMode (s : State) (p : Pin) (m : PinMode) : State :=
  match m with
  | .inputPullup =>
    { (s.setPad p { mode := .inputPullup, latch := Config.freeLatch s.latchDraws }) with
      latchDraws := s.latchDraws + 1 }
  | .input => s.setPad p { mode := .input, latch := (s.pad p).latch }
  | .output => s.setPad p { mode := .output, latch := (s.pad p).latch }

/-- `write_output(p, l)` (R32): the latch is written, the mode is unchanged. -/
def State.afterWriteOutput (s : State) (p : Pin) (l : Level) : State :=
  s.setPad p { mode := (s.pad p).mode, latch := l }

/-- The answer of the environment to the next `read_input` (R56): the next one listed, a free value beyond the list (log 4).
Nothing of the block's state constrains it. -/
def State.answer (s : State) (k : Nat) : Level :=
  match s.answers[s.reads + k]? with
  | some l => l
  | none => Config.freeLevel (s.reads + k)

/-- One question has been put to the environment. -/
def State.countRead (s : State) : State := { s with reads := s.reads + 1 }

/-- `mask_interrupts()` (R34): save the current state of delivery and disable it. -/
def State.afterMask (s : State) : State :=
  { s with irq := { masked := true, saved := some s.irq.masked } }

/-- `unmask_interrupts()` (R34, C8): put delivery back to the saved state. With nothing saved, which no procedure meets, it
changes nothing (log 13). -/
def State.afterUnmask (s : State) : State :=
  match s.irq.saved with
  | some m => { s with irq := { masked := m, saved := none } }
  | none => s

/-! ### The six primitives (R14) -/

/-- `set_pin_mode(p, m)`: event and effect, or the fault `DrivenHigh` where the pad would drive its line high (R33, R165). -/
def setPinMode (p : Pin) (m : PinMode) : Run Unit := fun s =>
  match ({ mode := m, latch := (s.pad p).latch } : Pad).drive with
  | .drivesHigh => .error (.drivenHigh p)
  | .floats | .pullsUp | .pullsLow => .ok ((), (s.emit (.setPinMode p m)).afterSetPinMode p m)

/-- `write_output(p, l)`. -/
def writeOutput (p : Pin) (l : Level) : Run Unit :=
  modify fun s => (s.emit (.writeOutput p l)).afterWriteOutput p l

/-- `read_input(p)`: the answer is the environment's. -/
def readInput (p : Pin) : Run Level := do
  let s ← get
  set (s.emit (.readInput p (s.answer 0))).countRead
  return s.answer 0

/-- `delay_microseconds(n)`: an event with no effect on the state (R200). -/
def delayMicroseconds (n : BitVec 16) : Run Unit :=
  modify fun s => s.emit (.delayMicroseconds n)

/-- `mask_interrupts()`. -/
def maskInterrupts : Run Unit :=
  modify fun s => (s.emit .maskInterrupts).afterMask

/-- `unmask_interrupts()`. -/
def unmaskInterrupts : Run Unit :=
  modify fun s => (s.emit .unmaskInterrupts).afterUnmask

/-! ### The Receive Buffer and its cursor -/

/-- `rxbuf[i] <- v` (R13, R24). -/
def State.storeRx (s : State) (i : Nat) (v : Byte) : State := { s with rxbuf := s.rxbuf.set i v }

/-- `rxbuf[rx_cursor]` (R24, R37). The commands read it only below `rx_valid`, where it exists (R26). In states no run
reaches it may not: it then reads as 0 (log 13). -/
def State.byteAtCursor (s : State) : Byte := s.rxbuf.getD s.rxCursor.toNat 0

/-- `rx_cursor <- c`. -/
def State.setRxCursor (s : State) (c : BitVec 8) : State := { s with rxCursor := c }

/-- `rx_valid <- v`. -/
def State.setRxValid (s : State) (v : BitVec 8) : State := { s with rxValid := v }

/-! ### The Transaction State -/

/-- `in_transmission <- b` (R21). -/
def State.setInTransmission (s : State) (b : Bool) : State := { s with inTransmission := b }

/-- `last_error <- e` (R22). -/
def State.setLastError (s : State) (e : Err) : State := { s with lastError := e }

/-! ### The command port: acceptance, response, illegal packets, reset -/

/-- The response word of a legal packet (R90): `ILLEGAL = 0`, bits 30:16 zero, `VALUE` in bits 15:0. -/
def responseWord (v : Value) : Response := v.zeroExtend 32

/-- The response word of an illegal packet (R90): `ILLEGAL = 1`, `VALUE = 0`. -/
def illegalResponse : Response := 0x80000000

/-- Deliver one response word; the block is ready again (R36, R75). -/
def State.deliver (s : State) (r : Response) : State :=
  { s with responses := s.responses ++ [r], sequencer := .ready }

/-- `raise Illegal(w)` (R163): no state change, no event, the ILLEGAL response. -/
def State.raiseIllegal (s : State) : State := s.deliver illegalResponse

/-- Run a command's procedure to its end and deliver its value (R75, R90). -/
def runCommand (body : Run Value) (s : State) : Host.Outcome State Fault Refusal :=
  match body s with
  | .ok (v, t) => .next (t.deliver (responseWord v))
  | .error f => .fault f

/-- Accept the offered packet (R75, R68): it is taken whole, what the host offers next is `rest`, and the block is busy. -/
def State.accept (s : State) (rest : List HostInput) : State :=
  { s with offered := rest, sequencer := .busy }

/-- The reset event (R185, R186): every element of R40 takes its reset value. No event, no response, and the platform's
interrupt mask is not touched. What the host and the environment still do is theirs. -/
def State.resetBlock (s : State) (rest : List HostInput) : State :=
  { State.resetWith s.cfg with
    irq := s.irq
    offered := rest
    answers := s.answers
    reads := s.reads
    latchDraws := s.latchDraws
    trace := s.trace
    responses := s.responses }

/-- The host offers `p` ahead of everything else, at a ready block, so that the very next step accepts it (log 6). -/
def State.offerFirst (s : State) (p : Packet) : State :=
  { s with offered := .packet p :: s.offered, sequencer := .ready }

end Sys2Proof.Machine
end

