-- ==== Sys2Proof/Machine/Operands.lean ====
section
/-! DEFINITION. Operand assembly (30_encoding.md R86, R87; 20_memory.md R61) and the encodings of results as `VALUE`
(R12, R89, R91). -/

namespace Sys2Proof.Machine

/-- The read/write bit for writing (R86). -/
def rwWrite : BitVec 1 := 0

/-- The read/write bit for reading (R86). -/
def rwRead : BitVec 1 := 1

/-- `addr_byte(A, rw) = {A[6:0], rw}` (R86). -/
def addrByte (a : BitVec 7) (rw : BitVec 1) : Byte := a ++ rw

/-- `min(a, b)` on unsigned bytes (R11). -/
def minByte (a b : BitVec 8) : BitVec 8 := if a.ult b then a else b

/-- `z = min(Z, 3)`, the clamped size of the internal address (R9 `IADDR_MAX`, R87). -/
def clampSize (z : BitVec 8) : BitVec 8 := minByte z 3

/-- `q = min(Q, BUFFER_CAPACITY)`, the clamped quantity (R87). -/
def clampQuantity (c : Config) (q : BitVec 8) : BitVec 8 := minByte q c.bufferCapacity

/-- Byte `k` of the internal address, `I[8*k+7 : 8*k]` (R61). -/
def internalByte (i : BitVec 32) (k : Nat) : Byte := i.extractLsb' (8 * k) 8

/-- `HALF_DELAY_US = floor(DELAY_US / 2)` (R9). -/
def halfDelayUs (c : Config) : BitVec 16 := c.delayUs >>> 1

/-- A level as a bit (R12): `LOW` is 0, `HIGH` is 1. -/
def levelBit : Level → BitVec 1
  | .low => 0
  | .high => 1

/-- A `Bool` result as `VALUE` (R91). -/
def boolValue (b : Bool) : Value := (BitVec.ofBool b).zeroExtend 16

/-- A `Level` result as `VALUE` (R91). -/
def levelValue (l : Level) : Value := (levelBit l).zeroExtend 16

/-- A byte or 8-bit count as `VALUE`, zero-extended (R91). -/
def byteValue (b : BitVec 8) : Value := b.zeroExtend 16

/-- `NO_DATA`, the sentinel of `READ` and `PEEK` (R91, R151): -1 in 16 bits. -/
def noData : Value := 0xFFFF

/-- `VALUE` of a command that returns nothing in the source (R91). -/
def noValue : Value := 0

end Sys2Proof.Machine
end

