-- ==== Sys2Proof/Machine/Flags.lean ====
section
/-! DEFINITION. The status flags: the codes of `last_error` (60_exceptions.md R160), how an error is recorded (R168), and
the sampled acknowledge (41_protocol_engine.md R115). -/

namespace Sys2Proof.Machine

/-- The 2-bit code of an error (R12, R160). -/
def errCode : Err → BitVec 2
  | .noError => 0
  | .dataTooLong => 1
  | .nackOnAddress => 2
  | .nackOnData => 3

/-- An error code as `VALUE` (R91). -/
def errValue (e : Err) : Value := (errCode e).zeroExtend 16

/-- Acknowledged: the data line sampled `LOW` in the ninth clock pulse (R115, R59). -/
def acknowledged : Level → Bool
  | .low => true
  | .high => false

/-- The first error of a transaction wins (R168): `e` is recorded only where nothing is recorded yet. -/
def firstError (recorded e : Err) : Err :=
  match recorded with
  | .noError => e
  | .dataTooLong => .dataTooLong
  | .nackOnAddress => .nackOnAddress
  | .nackOnData => .nackOnData

/-- `if (not ok) and last_error = NONE: last_error <- e` (R131, R134 step 4). -/
def recordError (ok : Bool) (e : Err) : Run Unit :=
  modify fun s => s.setLastError (if ok then s.lastError else firstError s.lastError e)

end Sys2Proof.Machine
end

