-- ==== Sys2Proof/Machine/PinDriver.lean ====
section
/-! DEFINITION. Family 1, the Pin Driver Shim (40_pin_driver.md): `release`, `drive_low`, `read`, the helper `set_sda`, and
the commands PIN_RELEASE, PIN_DRIVE_LOW, PIN_READ. -/

namespace Sys2Proof.Machine

/-- `release(p)` (R100). -/
def release (p : Pin) : Run Unit := do
  maskInterrupts
  let s ← get
  if s.cfg.pullupAssist then setPinMode p .inputPullup else setPinMode p .input
  unmaskInterrupts

/-- `drive_low(p)` (R101). -/
def driveLow (p : Pin) : Run Unit := do
  maskInterrupts
  let s ← get
  if s.cfg.pullupAssist then writeOutput p .low else pure ()
  setPinMode p .output
  unmaskInterrupts

/-- `read(p)` (R102). -/
def readPin (p : Pin) : Run Level := readInput p

/-- `set_sda(bit)` (R106). -/
def setSda (bit : Bool) : Run Unit :=
  if bit then release .sda else driveLow .sda

/-- `PIN_RELEASE pin` (R100). -/
def execPinRelease (p : Pin) (s : State) : Host.Outcome State Fault Refusal :=
  runCommand (do release p; return noValue) s

/-- `PIN_DRIVE_LOW pin` (R101). -/
def execPinDriveLow (p : Pin) (s : State) : Host.Outcome State Fault Refusal :=
  runCommand (do driveLow p; return noValue) s

/-- `PIN_READ pin` (R102). -/
def execPinRead (p : Pin) (s : State) : Host.Outcome State Fault Refusal :=
  runCommand (do let l ← readPin p; return levelValue l) s

end Sys2Proof.Machine
end

