-- ==== Sys2Proof/Machine/ProtocolEngine.lean ====
section
/-! DEFINITION. Family 2, the Bit-Level Protocol Engine (41_protocol_engine.md): the condition generators, the byte shifter,
bus initialisation, and the commands INITIALIZE and ENG_*. -/

namespace Sys2Proof.Machine

/-! ### Delays (R117) -/

/-- "wait one delay": `delay_microseconds(DELAY_US)`. -/
def waitFull : Run Unit := do
  let s ← get
  delayMicroseconds s.cfg.delayUs

/-- "wait half a delay": `delay_microseconds(HALF_DELAY_US)`. -/
def waitHalf : Run Unit := do
  let s ← get
  delayMicroseconds (halfDelayUs s.cfg)

/-! ### The byte shifter -/

/-- The data bits of `Write(b)` (R115): `for i = n - 1 downto 0`. -/
def sendBits (b : Byte) : Nat → Run Unit
  | 0 => pure ()
  | i + 1 => do
    setSda (b.getLsbD i)
    release .scl
    waitFull
    driveLow .scl
    sendBits b i

/-- `Write(b)` (R115). -/
def writeByte (b : Byte) : Run Bool := do
  sendBits b 8
  release .sda
  release .scl
  waitHalf
  let ack ← readPin .sda
  driveLow .scl
  waitHalf
  driveLow .sda
  return acknowledged ack

/-- `r <- ((r << 1) | s)[7:0]` (R116). -/
def shiftIn (r : Byte) (l : Level) : Byte := r <<< 1 ||| (levelBit l).zeroExtend 8

/-- The data bits of `Read(last)` (R116): `n` more samples shifted into `r`. -/
def receiveBits : Nat → Byte → Run Byte
  | 0, r => pure r
  | n + 1, r => do
    waitFull
    release .scl
    let l ← readPin .sda
    driveLow .scl
    receiveBits n (shiftIn r l)

/-- `Read(last)` (R116, C1): NACK is data released, ACK is data driven low. -/
def readByte (last : Bool) : Run Byte := do
  release .sda
  let r ← receiveBits 8 0
  if last then release .sda else driveLow .sda
  release .scl
  waitHalf
  driveLow .scl
  waitHalf
  driveLow .sda
  return r

/-! ### Conditions -/

/-- `Start(b)` (R111). -/
def start (b : Byte) : Run Bool := do
  driveLow .sda
  waitFull
  driveLow .scl
  writeByte b

/-- `RepStart(b)` (R112). -/
def repStart (b : Byte) : Run Bool := do
  release .sda
  release .scl
  waitFull
  start b

/-- `Stop()` (R114). -/
def stop : Run Unit := do
  driveLow .sda
  waitFull
  release .scl
  waitFull
  release .sda
  waitFull

/-- The loop of `StartWait(b)` (R113, D17) with `n` attempts left: every failed Start, the last included, is followed by a
Stop. With no attempt left it fails. -/
def startAttempts (b : Byte) : Nat → Run Bool
  | 0 => pure false
  | n + 1 => do
    let ok ← start b
    if ok then return true
    stop
    startAttempts b n

/-- `StartWait(b)` (R113). -/
def startWait (b : Byte) : Run Bool := do
  let s ← get
  startAttempts b s.cfg.startWaitRetries.toNat

/-- `initialize()` (R110, D15): both reads are always made. -/
def initBus : Run Bool := do
  driveLow .sda
  driveLow .scl
  release .sda
  release .scl
  let a ← readPin .sda
  let b ← readPin .scl
  return decide (a = .high ∧ b = .high)

/-! ### Commands -/

/-- `INITIALIZE` (R110). -/
def execInitialize (s : State) : Host.Outcome State Fault Refusal :=
  runCommand (do let ok ← initBus; return boolValue ok) s

/-- `ENG_START addr_byte` (R111). -/
def execEngStart (b : Byte) (s : State) : Host.Outcome State Fault Refusal :=
  runCommand (do let ok ← start b; return boolValue ok) s

/-- `ENG_REP_START addr_byte` (R112). -/
def execEngRepStart (b : Byte) (s : State) : Host.Outcome State Fault Refusal :=
  runCommand (do let ok ← repStart b; return boolValue ok) s

/-- `ENG_START_WAIT addr_byte` (R113). -/
def execEngStartWait (b : Byte) (s : State) : Host.Outcome State Fault Refusal :=
  runCommand (do let ok ← startWait b; return boolValue ok) s

/-- `ENG_STOP` (R114). -/
def execEngStop (s : State) : Host.Outcome State Fault Refusal :=
  runCommand (do stop; return noValue) s

/-- `ENG_WRITE byte` (R115). -/
def execEngWrite (b : Byte) (s : State) : Host.Outcome State Fault Refusal :=
  runCommand (do let ok ← writeByte b; return boolValue ok) s

/-- `ENG_READ last` (R116). -/
def execEngRead (last : Bool) (s : State) : Host.Outcome State Fault Refusal :=
  runCommand (do let r ← readByte last; return byteValue r) s

end Sys2Proof.Machine
end

