-- ==== Sys2Proof/Machine/TransferController.lean ====
section
/-! DEFINITION. Family 3, the Transfer Controller (42_transfer_controller.md): BEGIN_TRANSMISSION, WRITE, WRITE_BYTES,
END_TRANSMISSION, REQUEST_FROM and their procedures. -/

namespace Sys2Proof.Machine

/-- The one control decision (R138): open an addressing phase with a repeated Start when `in_transmission`, else a Start. -/
def openPhase (b : Byte) : Run Bool := do
  let s ← get
  if s.inTransmission then repStart b else start b

/-- `begin_transmission(A)` (R130). -/
def beginTransmission (a : BitVec 7) : Run Unit := do
  let ok ← openPhase (addrByte a rwWrite)
  modify fun s => s.setInTransmission true
  modify fun s => s.setLastError (if ok then .noError else .nackOnAddress)

/-- `write(b)` (R131). The result is the count 1 or 0. -/
def ctrlWrite (b : Byte) : Run (BitVec 8) := do
  let ok ← writeByte b
  recordError ok .nackOnData
  return (if ok then 1 else 0)

/-- The loop of `write_bytes` (R132) with `n` acknowledged so far. It never stops early. -/
def writeAll : List Byte → BitVec 8 → Run (BitVec 8)
  | [], n => pure n
  | b :: rest, n => do
    let one ← ctrlWrite b
    writeAll rest (n + one)

/-- `write_bytes(count, payload)` (R132): bytes 0 to `count - 1` of the payload, in order. -/
def writeBytes (count : BitVec 8) (payload : List Byte) : Run (BitVec 8) :=
  writeAll (payload.take count.toNat) 0

/-- `end_transmission(S)` (R133): Stop, then the flag, in the order of R133 (C12). -/
def endTransmission (sendStop : Bool) : Run Err := do
  let s ← get
  let ret := s.lastError
  if sendStop then
    stop
    modify fun s => s.setInTransmission false
  modify fun s => s.setLastError .noError
  return ret

/-- The register-address bytes of R134 step 2: `for k = n - 1 downto 0: write(I[8*k+7 : 8*k])`, results discarded. -/
def sendInternalAddress (i : BitVec 32) : Nat → Run Unit
  | 0 => pure ()
  | k + 1 => do
    let _ ← ctrlWrite (internalByte i k)
    sendInternalAddress i k

/-- R134 step 2, the write phase of a read with an internal address. -/
def sendRegisterPointer (a : BitVec 7) (i : BitVec 32) (z : BitVec 8) : Run Unit := do
  beginTransmission a
  sendInternalAddress i (clampSize z).toNat
  let _ ← endTransmission false

/-- R134 step 2: the write phase only when `Z > 0`. -/
def requestPointer (a : BitVec 7) (i : BitVec 32) (z : BitVec 8) : Run Unit :=
  if z != 0 then sendRegisterPointer a i z else pure ()

/-- R134 step 5 with `n` Reads left, the next into `rxbuf[i]`: NACK on the final byte only. -/
def receiveAll (i : Nat) : Nat → Run Unit
  | 0 => pure ()
  | n + 1 => do
    let r ← readByte (n == 0)
    modify fun s => s.storeRx i r
    receiveAll (i + 1) n

/-- R134 step 7: the flag, then Stop, in the order of R134 (C12). -/
def requestStop (sendStop : Bool) : Run Unit :=
  if sendStop then do
    modify fun s => s.setInTransmission false
    stop
  else pure ()

/-- `request_from(A, Q, I, Z, S)` (R134), its eight steps. -/
def requestFrom (a : BitVec 7) (quantity : BitVec 8) (i : BitVec 32) (z : BitVec 8) (sendStop : Bool) :
    Run (BitVec 8) := do
  -- 1
  modify fun s => s.setLastError .noError
  -- 2
  requestPointer a i z
  -- 3
  let s ← get
  let q := clampQuantity s.cfg quantity
  -- 4
  let ok ← openPhase (addrByte a rwRead)
  recordError ok .nackOnAddress
  -- 5
  receiveAll 0 q.toNat
  -- 6
  modify fun s => s.setRxValid (if s.lastError = .noError then q else 0)
  modify fun s => s.setRxCursor 0
  -- 7
  requestStop sendStop
  -- 8
  let s ← get
  return s.rxValid

/-! ### Commands -/

/-- `BEGIN_TRANSMISSION address` (R130). -/
def execBeginTransmission (a : BitVec 7) (s : State) : Host.Outcome State Fault Refusal :=
  runCommand (do beginTransmission a; return noValue) s

/-- `WRITE byte` (R131). -/
def execWrite (b : Byte) (s : State) : Host.Outcome State Fault Refusal :=
  runCommand (do let n ← ctrlWrite b; return byteValue n) s

/-- `WRITE_BYTES count, b0, ..., b(count-1)` (R132). -/
def execWriteBytes (count : BitVec 8) (payload : List Byte) (s : State) : Host.Outcome State Fault Refusal :=
  runCommand (do let n ← writeBytes count payload; return byteValue n) s

/-- `END_TRANSMISSION send_stop` (R133). -/
def execEndTransmission (sendStop : Bool) (s : State) : Host.Outcome State Fault Refusal :=
  runCommand (do let e ← endTransmission sendStop; return errValue e) s

/-- `REQUEST_FROM address, quantity, internal_address, internal_address_size, send_stop` (R134). -/
def execRequestFrom (a : BitVec 7) (q : BitVec 8) (i : BitVec 32) (z : BitVec 8) (sendStop : Bool) (s : State) :
    Host.Outcome State Fault Refusal :=
  runCommand (do let n ← requestFrom a q i z sendStop; return byteValue n) s

end Sys2Proof.Machine
end

