-- ==== Sys2Proof/Machine/StreamWrapper.lean ====
section
/-! DEFINITION. Family 4, the Stream Convenience Wrapper (43_stream_wrapper.md): AVAILABLE, READ, PEEK, FLUSH. None has pin
activity (R154). -/

namespace Sys2Proof.Machine

/-- `available()` (R150): 8-bit subtraction. Where the invariant of R26 holds it does not underflow (log 13). -/
def available : Run Value := do
  let s ← get
  return byteValue (s.rxValid - s.rxCursor)

/-- `read()` of the stream (R151). -/
def streamRead : Run Value := do
  let s ← get
  if s.rxValid ≤ s.rxCursor then return noData
  set (s.setRxCursor (s.rxCursor + 1))
  return byteValue s.byteAtCursor

/-- `peek()` (R152). -/
def streamPeek : Run Value := do
  let s ← get
  if s.rxValid ≤ s.rxCursor then return noData
  return byteValue s.byteAtCursor

/-- `flush()` (R153): no effect at all. -/
def streamFlush : Run Value := return noValue

/-- `AVAILABLE` (R150). -/
def execAvailable (s : State) : Host.Outcome State Fault Refusal := runCommand available s

/-- `READ` (R151). -/
def execRead (s : State) : Host.Outcome State Fault Refusal := runCommand streamRead s

/-- `PEEK` (R152). -/
def execPeek (s : State) : Host.Outcome State Fault Refusal := runCommand streamPeek s

/-- `FLUSH` (R153). -/
def execFlush (s : State) : Host.Outcome State Fault Refusal := runCommand streamFlush s

end Sys2Proof.Machine
end

