-- ==== Sys2Proof/Machine/Dispatch.lean ====
section
/-! DEFINITION. exec: one arm per command, each a call of its meaning. -/

namespace Sys2Proof.Machine

def exec (i : Instr) (s : State) : Host.Outcome State Fault Refusal :=
  match i with
  | .initializeBus => Sys2Proof.Machine.execInitialize s
  | .beginTransmission address => Sys2Proof.Machine.execBeginTransmission address s
  | .write byte => Sys2Proof.Machine.execWrite byte s
  | .writeBytes count payload => Sys2Proof.Machine.execWriteBytes count payload s
  | .endTransmission sendStop => Sys2Proof.Machine.execEndTransmission sendStop s
  | .requestFrom address quantity iaddr isize sendStop => Sys2Proof.Machine.execRequestFrom address quantity iaddr isize sendStop s
  | .available => Sys2Proof.Machine.execAvailable s
  | .read => Sys2Proof.Machine.execRead s
  | .peek => Sys2Proof.Machine.execPeek s
  | .flush => Sys2Proof.Machine.execFlush s
  | .engStart addrByte => Sys2Proof.Machine.execEngStart addrByte s
  | .engRepStart addrByte => Sys2Proof.Machine.execEngRepStart addrByte s
  | .engStartWait addrByte => Sys2Proof.Machine.execEngStartWait addrByte s
  | .engStop => Sys2Proof.Machine.execEngStop s
  | .engWrite byte => Sys2Proof.Machine.execEngWrite byte s
  | .engRead last => Sys2Proof.Machine.execEngRead last s
  | .pinRelease pin => Sys2Proof.Machine.execPinRelease pin s
  | .pinDriveLow pin => Sys2Proof.Machine.execPinDriveLow pin s
  | .pinRead pin => Sys2Proof.Machine.execPinRead pin s

end Sys2Proof.Machine
end

