-- ==== Sys2Proof/Machine/Step.lean ====
section
/-! DEFINITION. One step of the machine: the block accepts the packet the host offers, runs its command to the end and
answers it (10_state.md R36, 30_encoding.md R75, 70_reset_and_hazards.md R185, R186). -/

namespace Sys2Proof.Machine

/-- Run an accepted packet (R79, R163): its command, or the ILLEGAL response. -/
def runPacket (p : Packet) (s : State) : Host.Outcome State Fault Refusal :=
  match decode p with
  | .ok i => exec i s
  | .error _ => .next s.raiseIllegal

/-- One step. A ready block accepts the next packet, or waits where nothing is offered. A busy block accepts nothing (R75).
A reset takes the block to its reset state (R185), a busy one too, whose command is abandoned (R186; log 7). Parameters
outside their ranges are refused (U7, U8; log 11). -/
def step (s : State) : Host.Outcome State Fault Refusal :=
  if s.cfg.wf then
    match s.sequencer, s.offered with
    | _, .reset :: rest => .next (s.resetBlock rest)
    | .ready, [] => .next s
    | .ready, .packet p :: rest => runPacket p (s.accept rest)
    | .busy, .packet _ :: _ => .next s
    | .busy, [] => .next s
  else .refused .configOutsideSpec

/-- `s` with the instruction of an opcode-table word offered on the command port, so that the very next step accepts it. -/
def State.withFetchWord (s : State) (nbits w : Nat) : State :=
  s.offerFirst (packetOfTableWord nbits w)

end Sys2Proof.Machine
end

