-- ==== Sys2Proof/Machine/Assembler.lean ====
section
/-! DEFINITION. The assembler syntax and the pseudo-instructions (30_encoding.md R92, R93): a line of text as a command. -/

namespace Sys2Proof.Machine

/-- The mnemonic column of R78. -/
def mnemonic : Opcode → String
  | .initializeBus => "INITIALIZE"
  | .beginTransmission => "BEGIN_TRANSMISSION"
  | .write => "WRITE"
  | .writeBytes => "WRITE_BYTES"
  | .endTransmission => "END_TRANSMISSION"
  | .requestFrom => "REQUEST_FROM"
  | .available => "AVAILABLE"
  | .read => "READ"
  | .peek => "PEEK"
  | .flush => "FLUSH"
  | .engStart => "ENG_START"
  | .engRepStart => "ENG_REP_START"
  | .engStartWait => "ENG_START_WAIT"
  | .engStop => "ENG_STOP"
  | .engWrite => "ENG_WRITE"
  | .engRead => "ENG_READ"
  | .pinRelease => "PIN_RELEASE"
  | .pinDriveLow => "PIN_DRIVE_LOW"
  | .pinRead => "PIN_READ"

/-! ### Operands -/

/-- A number as a field of `n` bits. A number that does not fit names no command (log 15). -/
def asmBits (n : Nat) : AsmOperand → Option (BitVec n)
  | .num v => if v < 2 ^ n then some (BitVec.ofNat n v) else none
  | .pin _ => none

/-- A `Bool` operand, written 0 or 1. -/
def asmFlag : AsmOperand → Option Bool
  | .num 0 => some false
  | .num 1 => some true
  | .num (_ + 2) => none
  | .pin _ => none

/-- A `Pin` operand, written `SDA` or `SCL`. -/
def asmPin : AsmOperand → Option Pin
  | .num _ => none
  | .pin p => some p

/-- `REQUEST_FROM` with all five operands. -/
def asmRequest (a q i z s : AsmOperand) : Option Instr := do
  return .requestFrom (← asmBits 7 a) (← asmBits 8 q) (← asmBits 32 i) (← asmBits 8 z) (← asmFlag s)

/-- `WRITE_BYTES count, b0, ..., b(count-1)`. -/
def asmWriteBytes (count : AsmOperand) (bytes : List AsmOperand) : Option Instr := do
  let c ← asmBits 8 count
  let bs ← bytes.mapM (asmBits 8)
  if bs.length = c.toNat then some (.writeBytes c bs) else none

/-- A mnemonic and its operands as a command: the forms of R92 and, told apart by their number of operands, the
pseudo-instructions of R93 (`send_stop` defaults to 1, the internal address to 0 of size 0). -/
def assemble (o : Opcode) (ops : List AsmOperand) : Option Instr :=
  match o, ops with
  | .initializeBus, [] => some .initializeBus
  | .beginTransmission, [a] => (asmBits 7 a).map .beginTransmission
  | .write, [b] => (asmBits 8 b).map .write
  | .writeBytes, count :: bytes => asmWriteBytes count bytes
  | .endTransmission, [] => some (.endTransmission true)
  | .endTransmission, [s] => (asmFlag s).map .endTransmission
  | .requestFrom, [a, q] => asmRequest a q (.num 0) (.num 0) (.num 1)
  | .requestFrom, [a, q, s] => asmRequest a q (.num 0) (.num 0) s
  | .requestFrom, [a, q, i, z] => asmRequest a q i z (.num 1)
  | .requestFrom, [a, q, i, z, s] => asmRequest a q i z s
  | .available, [] => some .available
  | .read, [] => some .read
  | .peek, [] => some .peek
  | .flush, [] => some .flush
  | .engStart, [b] => (asmBits 8 b).map .engStart
  | .engRepStart, [b] => (asmBits 8 b).map .engRepStart
  | .engStartWait, [b] => (asmBits 8 b).map .engStartWait
  | .engStop, [] => some .engStop
  | .engWrite, [b] => (asmBits 8 b).map .engWrite
  | .engRead, [s] => (asmFlag s).map .engRead
  | .pinRelease, [p] => (asmPin p).map .pinRelease
  | .pinDriveLow, [p] => (asmPin p).map .pinDriveLow
  | .pinRead, [p] => (asmPin p).map .pinRead
  | _, _ => none

/-- A `Bool` operand as it is written. -/
def writeFlag (b : Bool) : AsmOperand := .num b.toNat

/-- The operands a command is written with, in the order of the table of R92. -/
def writtenOperands : Instr → List AsmOperand
  | .initializeBus | .available | .read | .peek | .flush | .engStop => []
  | .beginTransmission a => [.num a.toNat]
  | .write b | .engWrite b | .engStart b | .engRepStart b | .engStartWait b => [.num b.toNat]
  | .writeBytes count payload => .num count.toNat :: payload.map (fun b => .num b.toNat)
  | .endTransmission sendStop => [writeFlag sendStop]
  | .requestFrom a q i z sendStop => [.num a.toNat, .num q.toNat, .num i.toNat, .num z.toNat, writeFlag sendStop]
  | .engRead last => [writeFlag last]
  | .pinRelease p | .pinDriveLow p | .pinRead p => [.pin p]

/-! ### Text -/

/-- The value of a digit in base 10 or 16. -/
def digitValue (base : Nat) (c : Char) : Option Nat :=
  let v :=
    if '0' ≤ c ∧ c ≤ '9' then c.toNat - '0'.toNat
    else if 'a' ≤ c ∧ c ≤ 'f' then c.toNat - 'a'.toNat + 10
    else if 'A' ≤ c ∧ c ≤ 'F' then c.toNat - 'A'.toNat + 10
    else base
  if v < base then some v else none

/-- The value of a run of digits after `acc`. -/
def digitsValue (base : Nat) : List Char → Nat → Option Nat
  | [], acc => some acc
  | c :: rest, acc =>
    match digitValue base c with
    | some v => digitsValue base rest (acc * base + v)
    | none => none

/-- A decimal or `0x` hexadecimal number (R92). -/
def parseNumber : List Char → Option Nat
  | '0' :: 'x' :: d :: ds => digitsValue 16 (d :: ds) 0
  | d :: ds => digitsValue 10 (d :: ds) 0
  | [] => none

/-- An operand: `SDA`, `SCL` or a number. -/
def parseOperand (cs : List Char) : Option AsmOperand :=
  if cs = ['S', 'D', 'A'] then some (.pin .sda)
  else if cs = ['S', 'C', 'L'] then some (.pin .scl)
  else (parseNumber cs).map .num

/-- Whether a character is blank. -/
def isBlank (c : Char) : Bool := c == ' ' || c == '\t'

/-- The text without blanks at its ends. -/
def trimBlanks (cs : List Char) : List Char :=
  ((cs.dropWhile isBlank).reverse.dropWhile isBlank).reverse

/-- The pieces of a text between separators. -/
def splitAtChar (sep : Char) : List Char → List (List Char)
  | [] => [[]]
  | c :: rest =>
    match splitAtChar sep rest with
    | [] => [[c]]
    | piece :: pieces => if c == sep then [] :: piece :: pieces else (c :: piece) :: pieces

/-- The operands of a line, comma-separated (R92). -/
def parseOperands (cs : List Char) : Option (List AsmOperand) :=
  match trimBlanks cs with
  | [] => some []
  | c :: rest => (splitAtChar ',' (c :: rest)).mapM (fun piece => parseOperand (trimBlanks piece))

/-- One line (R92): the commands on it, at most one. `#` starts a comment. A line that is no command has no reading. -/
def assembleLine (line : List Char) : Option (List Instr) :=
  match trimBlanks (line.takeWhile (· != '#')) with
  | [] => some []
  | c :: rest =>
    let text := c :: rest
    let name := text.takeWhile (fun d => !isBlank d)
    match Opcode.all.find? (fun o => (mnemonic o).toList == name), parseOperands (text.drop name.length) with
    | some o, some ops => (assemble o ops).map (fun i => [i])
    | some _, none => none
    | none, _ => none

/-- A program text, one command a line, as its commands in order. -/
def assembleText (text : String) : Option (List Instr) :=
  ((splitAtChar '\n' text.toList).mapM assembleLine).map List.flatten

end Sys2Proof.Machine
end

