-- ==== Sys2Proof/WellFormed.lean ====
section
/-! DEFINITION. What a command's fields must satisfy beyond their types: the payload length of R88. Every other operand
value is legal (R81). -/

namespace Sys2Proof

/-- `WRITE_BYTES` carries exactly `count` payload bytes (R88); the types check every other field. -/
def Instr.wellFormed : Instr → Bool
  | .initializeBus => true
  | .beginTransmission _ => true
  | .write _ => true
  | .writeBytes count payload => payload.length == count.toNat
  | .endTransmission _ => true
  | .requestFrom _ _ _ _ _ => true
  | .available => true
  | .read => true
  | .peek => true
  | .flush => true
  | .engStart _ => true
  | .engRepStart _ => true
  | .engStartWait _ => true
  | .engStop => true
  | .engWrite _ => true
  | .engRead _ => true
  | .pinRelease _ => true
  | .pinDriveLow _ => true
  | .pinRead _ => true

end Sys2Proof
end

