-- ==== Sys2Proof/Safety.lean ====
section
/-! DEFINITION. The terms claims are stated in: the named pin states (00_scope.md R17), the invariant of a run, the compact
trace notation (R19) with the trace of every procedure in it, the masked windows (40_pin_driver.md R103), the pin trace and
the wire conditions (20_memory.md R58, R69), and what a command leaves unchanged. -/

namespace Sys2Proof.Machine

/-! ### Pin states (R17) -/

/-- `IDLE`: neither line is driven. -/
abbrev State.idle (s : State) : Prop := s.sda.mode ≠ .output ∧ s.scl.mode ≠ .output

/-- `HELD`: both lines are driven low. -/
abbrev State.held (s : State) : Prop :=
  s.sda = { mode := .output, latch := .low } ∧ s.scl = { mode := .output, latch := .low }

/-- Driving a pin low cannot meet a `HIGH` latch: under pull-up assist the latch is written first, without it both latches
are `LOW` (R33, R101). -/
abbrev State.drivable (s : State) : Prop :=
  s.cfg.pullupAssist = true ∨ (s.sda.latch = .low ∧ s.scl.latch = .low)

/-- The mode a release writes (R100). -/
def releasedMode (c : Config) : PinMode := if c.pullupAssist then .inputPullup else .input

/-- Both pins in the mode a release writes: the `IDLE` that `Stop` and `initialize` end in (R17, R118). -/
abbrev State.bothReleased (s : State) : Prop :=
  s.sda.mode = releasedMode s.cfg ∧ s.scl.mode = releasedMode s.cfg

/-! ### The invariant of a run -/

/-- What holds after reset and after every step (R22, R26, R33, R34, R36). -/
structure State.Inv (s : State) : Prop where
  /-- The parameters are in range (R7, R8, R10). -/
  parameters : s.cfg.wf = true
  /-- The Receive Buffer has `BUFFER_CAPACITY` bytes (R24). -/
  capacity : s.rxbuf.length = s.cfg.bufferCapacity.toNat
  /-- `rx_cursor <= rx_valid` (R26). -/
  cursor : s.rxCursor ≤ s.rxValid
  /-- `rx_valid <= BUFFER_CAPACITY` (R26). -/
  valid : s.rxValid ≤ s.cfg.bufferCapacity
  /-- An output pin drives low, never high (R33). -/
  drivesLow : ∀ p, (s.pad p).mode = .output → (s.pad p).latch = .low
  /-- Without pull-up assist no latch is ever high (R33). -/
  latchLow : s.cfg.pullupAssist = false → ∀ p, (s.pad p).latch = .low
  /-- Without pull-up assist no pin has the platform's pull-up (R100). -/
  noPullup : s.cfg.pullupAssist = false → ∀ p, (s.pad p).mode ≠ .inputPullup
  /-- `DATA_TOO_LONG` is never recorded (R22, U2). -/
  errorCode : s.lastError ≠ .dataTooLong
  /-- No masked window is open between commands (R34, R103). -/
  noWindow : s.irq.saved = none
  /-- The sequencer is ready between commands (R36). -/
  ready : s.sequencer = .ready

/-- Every element of R40 is at its reset value, but for the contents of the Receive Buffer, which R40 leaves unspecified. -/
structure State.AtReset (s : State) : Prop where
  inTransmission : s.inTransmission = false
  lastError : s.lastError = .noError
  capacity : s.rxbuf.length = s.cfg.bufferCapacity.toNat
  rxCursor : s.rxCursor = 0
  rxValid : s.rxValid = 0
  sda : s.sda = { mode := .input, latch := .low }
  scl : s.scl = { mode := .input, latch := .low }
  ready : s.sequencer = .ready

/-- The number of an error code as a `VALUE` (R91, R160). -/
def errNumber : Err → Value
  | .noError => 0
  | .dataTooLong => 1
  | .nackOnAddress => 2
  | .nackOnData => 3

/-! ### The compact trace notation (R19) -/

/-- One character of the notation. -/
inductive Letter where
  /-- `D`: `release(SDA)` -/
  | relSda
  /-- `d`: `drive_low(SDA)` -/
  | lowSda
  /-- `C`: `release(SCL)` -/
  | relScl
  /-- `c`: `drive_low(SCL)` -/
  | lowScl
  /-- `w`: a full delay -/
  | full
  /-- `h`: a half delay -/
  | half
  /-- `?`: `read(SDA)` with its answer -/
  | askSda (l : Level)
  /-- `!`: `read(SCL)` with its answer -/
  | askScl (l : Level)
  deriving DecidableEq, Repr

/-- The three events of a release (R100). -/
def releaseEvents (c : Config) (p : Pin) : List Event :=
  [.maskInterrupts, .setPinMode p (releasedMode c), .unmaskInterrupts]

/-- The three or four events of a drive-low (R101). -/
def driveLowEvents (c : Config) (p : Pin) : List Event :=
  if c.pullupAssist then
    [.maskInterrupts, .writeOutput p .low, .setPinMode p .output, .unmaskInterrupts]
  else [.maskInterrupts, .setPinMode p .output, .unmaskInterrupts]

/-- The events a character stands for (R19). -/
def Letter.events (c : Config) : Letter → List Event
  | .relSda => releaseEvents c .sda
  | .lowSda => driveLowEvents c .sda
  | .relScl => releaseEvents c .scl
  | .lowScl => driveLowEvents c .scl
  | .full => [.delayMicroseconds c.delayUs]
  | .half => [.delayMicroseconds (halfDelayUs c)]
  | .askSda l => [.readInput .sda l]
  | .askScl l => [.readInput .scl l]

/-- The events of a compact trace. -/
def expand (c : Config) (ls : List Letter) : List Event := ls.flatMap (Letter.events c)

/-- Whether a character is a question to the environment. -/
def Letter.asks : Letter → Bool
  | .askSda _ => true
  | .askScl _ => true
  | .relSda | .lowSda | .relScl | .lowScl | .full | .half => false

/-- Whether a character is a call of the shim that switches a pin. -/
def Letter.switches : Letter → Bool
  | .relSda | .lowSda | .relScl | .lowScl => true
  | .full | .half | .askSda _ | .askScl _ => false

/-- The row of R118 for a compact trace: shim calls, full delays, half delays, reads. -/
def counts (ls : List Letter) : Nat × Nat × Nat × Nat :=
  (ls.countP Letter.switches, ls.count .full, ls.count .half, ls.countP Letter.asks)

/-- How many answers of the environment a compact trace takes. -/
def askCount (ls : List Letter) : Nat := ls.countP Letter.asks

/-- The group `xCwc` of one data bit (R115): `x` is `D` for 1 and `d` for 0. -/
def bitLetters (bit : Bool) : List Letter :=
  [if bit then .relSda else .lowSda, .relScl, .full, .lowScl]

/-- The compact trace of `Write(b)` (R115): eight groups, bit 7 first, then `DCh?chd`. -/
def writeLetters (b : Byte) (ack : Level) : List Letter :=
  [7, 6, 5, 4, 3, 2, 1, 0].flatMap (fun i => bitLetters (b.getLsbD i))
    ++ [.relSda, .relScl, .half, .askSda ack, .lowScl, .half, .lowSda]

/-- The compact trace of `Start(b)` (R111): `dwc`, then `Write(b)`. -/
def startLetters (b : Byte) (ack : Level) : List Letter :=
  [.lowSda, .full, .lowScl] ++ writeLetters b ack

/-- The compact trace of `RepStart(b)` (R112): `DCw`, then `Start(b)`. -/
def repStartLetters (b : Byte) (ack : Level) : List Letter :=
  [.relSda, .relScl, .full] ++ startLetters b ack

/-- The compact trace of `Stop()` (R114): `dwCwDw`. -/
def stopLetters : List Letter := [.lowSda, .full, .relScl, .full, .relSda, .full]

/-- The compact trace of `Read(last)` (R116) with its eight samples: `D`, eight groups `wC?c`, then `dChchd` for ACK or
`DChchd` for NACK. -/
def readLetters (sample : Nat → Level) (last : Bool) : List Letter :=
  [.relSda]
    ++ [0, 1, 2, 3, 4, 5, 6, 7].flatMap (fun j => [.full, .relScl, .askSda (sample j), .lowScl])
    ++ [if last then .relSda else .lowSda, .relScl, .half, .lowScl, .half, .lowSda]

/-- The compact trace of `initialize()` (R110): `dcDC?!`. -/
def initializeLetters (a b : Level) : List Letter :=
  [.lowSda, .lowScl, .relSda, .relScl, .askSda a, .askScl b]

/-- `n` failed attempts of Start-Wait, each a Start not acknowledged and a Stop (R113). -/
def failedAttempts (b : Byte) (n : Nat) : List Letter :=
  (List.replicate n (startLetters b .high ++ stopLetters)).flatten

/-- Start or Repeated Start by the flag (R138). -/
def openLetters (inTransmission : Bool) (b : Byte) (ack : Level) : List Letter :=
  if inTransmission then repStartLetters b ack else startLetters b ack

/-- Writes in a row, the `k`-th acknowledged or not by `ack k` (R132). -/
def writesLetters : List Byte → (Nat → Level) → List Letter
  | [], _ => []
  | b :: rest, ack => writeLetters b (ack 0) ++ writesLetters rest (fun k => ack (k + 1))

/-- `n` Reads in a row with their samples, the last one answered NACK (R134 step 5). -/
def readsLetters : Nat → (Nat → Level) → List Letter
  | 0, _ => []
  | n + 1, sample => readLetters sample (n == 0) ++ readsLetters n (fun k => sample (k + 8))

/-- The byte of eight samples, the first one in bit 7 (R60, R116): `{s1, ..., s8}`. -/
def sampledByte (sample : Nat → Level) : Byte :=
  levelBit (sample 0) ++ levelBit (sample 1) ++ levelBit (sample 2) ++ levelBit (sample 3) ++
    levelBit (sample 4) ++ levelBit (sample 5) ++ levelBit (sample 6) ++ levelBit (sample 7)

/-- The internal address bytes of `REQUEST_FROM`, most significant first (R61): `z` of them. -/
def internalAddressBytes (i : BitVec 32) (z : Nat) : List Byte :=
  ((List.range z).map (internalByte i)).reverse

/-- How many of the first `n` acknowledge samples are `LOW`. -/
def ackCount (n : Nat) (ack : Nat → Level) : Nat := (List.range n).countP (fun k => ack k == .low)

/-- `last_error` after `n` writes that began with `e` recorded: `NACK_ON_DATA` when nothing was recorded and some write was
not acknowledged, else what was recorded (R131, R168). -/
def errorAfterWrites (e : Err) (n : Nat) (ack : Nat → Level) : Err :=
  if e = .noError ∧ ackCount n ack < n then .nackOnData else e

/-- The compact trace of step 2 of `REQUEST_FROM` (R134): nothing when `Z = 0`, else the write addressing and the register
bytes. -/
def pointerLetters (inTransmission : Bool) (a : BitVec 7) (i : BitVec 32) (z : BitVec 8) (f : Nat → Level) : List Letter :=
  if z = 0 then []
  else openLetters inTransmission (addrByte a rwWrite) (f 0)
    ++ writesLetters (internalAddressBytes i (min z.toNat 3)) (fun k => f (1 + k))

/-- Which answer of a `REQUEST_FROM` is the acknowledge of its read addressing: step 2 takes `1 + min(Z, 3)` before it. -/
def readAckIndex (z : BitVec 8) : Nat := if z = 0 then 0 else 1 + min z.toNat 3

/-- The compact trace of `REQUEST_FROM` (R134) with `q` Reads, its answers taken from `f`. -/
def requestLetters (inTransmission : Bool) (a : BitVec 7) (q : Nat) (i : BitVec 32) (z : BitVec 8) (sendStop : Bool)
    (f : Nat → Level) : List Letter :=
  pointerLetters inTransmission a i z f
    ++ openLetters (inTransmission || z != 0) (addrByte a rwRead) (f (readAckIndex z))
    ++ readsLetters q (fun k => f (readAckIndex z + 1 + k))
    ++ (if sendStop then stopLetters else [])

/-! ### Masked windows (R103) -/

/-- Where a trace stands with respect to the masked windows. -/
inductive WindowPhase where
  /-- outside every window -/
  | outside
  /-- interrupts masked, nothing done yet -/
  | opened
  /-- the latch of `p` written `LOW` -/
  | written (p : Pin)
  /-- the mode switched -/
  | switched
  deriving DecidableEq, Repr

/-- Every mode switch stands alone in a masked window, with at most one `write_output(p, LOW)` of the same pin before it.
Delays and reads stand outside windows, and windows do not nest (R103, R105). -/
def WindowPhase.after : WindowPhase → Event → Option WindowPhase
  | .outside, .maskInterrupts => some .opened
  | .outside, .readInput _ _ => some .outside
  | .outside, .delayMicroseconds _ => some .outside
  | .opened, .setPinMode _ _ => some .switched
  | .opened, .writeOutput p .low => some (.written p)
  | .written p, .setPinMode p' _ => if p = p' then some .switched else none
  | .switched, .unmaskInterrupts => some .outside
  | _, _ => none

/-- A trace that obeys the masking discipline, with every window closed at its end (R103). -/
def windowed (es : List Event) : Bool := decide (es.foldlM WindowPhase.after .outside = some .outside)

/-! ### The pin trace and the wire (R58, R69) -/

/-- The block's own part in the two lines: released (`Z`) or driven low (`0`). -/
structure Lines where
  sdaReleased : Bool
  sclReleased : Bool
  deriving DecidableEq, Repr

/-- The lines of a state's pads (R69), by what each pad does (R33). -/
def State.lines (s : State) : Lines where
  sdaReleased := s.sda.drive.released
  sclReleased := s.scl.drive.released

/-- The lines after `set_pin_mode(p, m)`. -/
def Lines.switch (l : Lines) (p : Pin) (m : PinMode) : Lines :=
  match p with
  | .sda => { l with sdaReleased := m != .output }
  | .scl => { l with sclReleased := m != .output }

/-- The pin trace (R69): the lines after each `set_pin_mode` event. -/
def pinTrace (l : Lines) : List Event → List Lines
  | [] => []
  | .setPinMode p m :: rest => l.switch p m :: pinTrace (l.switch p m) rest
  | .writeOutput _ _ :: rest => pinTrace l rest
  | .readInput _ _ :: rest => pinTrace l rest
  | .delayMicroseconds _ :: rest => pinTrace l rest
  | .maskInterrupts :: rest => pinTrace l rest
  | .unmaskInterrupts :: rest => pinTrace l rest

/-- The wire conditions of R58. -/
inductive Condition where
  | start
  | stop
  deriving DecidableEq, Repr

/-- The condition of one change of the lines, a released line being high (R58): data changes while clock is high. -/
def conditionOf (before after : Lines) : List Condition :=
  if before.sclReleased && after.sclReleased then
    match before.sdaReleased, after.sdaReleased with
    | true, false => [.start]
    | false, true => [.stop]
    | true, true => []
    | false, false => []
  else []

/-- The conditions along a pin trace that begins at `l`. -/
def conditionsAlong (l : Lines) : List Lines → List Condition
  | [] => []
  | l' :: rest => conditionOf l l' ++ conditionsAlong l' rest

/-- The conditions that a list of events puts on the wire from lines `l`. -/
def conditions (l : Lines) (es : List Event) : List Condition := conditionsAlong l (pinTrace l es)

/-! ### What a command does and what it leaves unchanged -/

/-- From `s` to `t` the block emitted exactly the events of `ls`, took exactly their answers, answered `v`, and is ready. -/
structure Emitted (s t : State) (ls : List Letter) (v : Value) : Prop where
  trace : t.trace = s.trace ++ expand s.cfg ls
  reads : t.reads = s.reads + askCount ls
  response : t.responses = s.responses ++ [responseWord v]
  ready : t.sequencer = .ready

/-- The Transaction State is unchanged. -/
structure KeptTransaction (s t : State) : Prop where
  inTransmission : t.inTransmission = s.inTransmission
  lastError : t.lastError = s.lastError

/-- The Receive Buffer and its cursor are unchanged. -/
structure KeptBuffer (s t : State) : Prop where
  rxbuf : t.rxbuf = s.rxbuf
  rxCursor : t.rxCursor = s.rxCursor
  rxValid : t.rxValid = s.rxValid

/-- The pads are unchanged, and no unspecified latch was drawn. -/
structure KeptPads (s t : State) : Prop where
  sda : t.sda = s.sda
  scl : t.scl = s.scl
  latchDraws : t.latchDraws = s.latchDraws

/-- What no command changes: the parameters, what host and environment will still do, and the platform's interrupt mask,
which is as before the command with no window left open (R34). -/
structure KeptWorld (s t : State) : Prop where
  cfg : t.cfg = s.cfg
  offered : t.offered = s.offered
  answers : t.answers = s.answers
  masked : t.irq.masked = s.irq.masked
  noWindow : s.irq.saved = none → t.irq.saved = none

/-- Without pull-up assist no latch changes (R31, R33). -/
abbrev KeptLatches (s t : State) : Prop :=
  s.cfg.pullupAssist = false → t.sda.latch = s.sda.latch ∧ t.scl.latch = s.scl.latch

/-- Nothing changes but the pins, and without pull-up assist no latch does: what the engine and the shim may do (R23, R117). -/
structure PinsOnly (s t : State) : Prop where
  latches : KeptLatches s t
  transaction : KeptTransaction s t
  buffer : KeptBuffer s t
  world : KeptWorld s t

/-- The five commands of the Transfer Controller (42_transfer_controller.md). -/
def isController : Instr → Bool
  | .beginTransmission _ | .write _ | .writeBytes _ _ | .endTransmission _ | .requestFrom _ _ _ _ _ => true
  | .initializeBus | .available | .read | .peek | .flush | .engStart _ | .engRepStart _ | .engStartWait _ | .engStop
  | .engWrite _ | .engRead _ | .pinRelease _ | .pinDriveLow _ | .pinRead _ => false

/-- The four commands of the Stream Wrapper (43_stream_wrapper.md). -/
def isStream : Instr → Bool
  | .available | .read | .peek | .flush => true
  | .initializeBus | .beginTransmission _ | .write _ | .writeBytes _ _ | .endTransmission _ | .requestFrom _ _ _ _ _
  | .engStart _ | .engRepStart _ | .engStartWait _ | .engStop | .engWrite _ | .engRead _ | .pinRelease _
  | .pinDriveLow _ | .pinRead _ => false

/-- What a well-behaved caller observes before a controller command (R139): it writes only inside a transmission, and reads
without a stop and without an internal address only inside one. -/
def callerMayIssue (i : Instr) (s : State) : Prop :=
  match i with
  | .write _ => s.inTransmission = true
  | .writeBytes _ _ => s.inTransmission = true
  | .requestFrom _ _ _ z sendStop => z ≠ 0 ∨ sendStop = true ∨ s.inTransmission = true
  | .beginTransmission _ | .endTransmission _ | .initializeBus | .available | .read | .peek | .flush | .engStart _
  | .engRepStart _ | .engStartWait _ | .engStop | .engWrite _ | .engRead _ | .pinRelease _ | .pinDriveLow _
  | .pinRead _ => True

/-- The answers hidden, so that two traces can be compared up to them (R136). -/
def Event.hideAnswer : Event → Event
  | .readInput p _ => .readInput p .low
  | .setPinMode p m => .setPinMode p m
  | .writeOutput p l => .writeOutput p l
  | .delayMicroseconds n => .delayMicroseconds n
  | .maskInterrupts => .maskInterrupts
  | .unmaskInterrupts => .unmaskInterrupts

/-- `t` is `s` but for Receive Buffer entries that no command can observe: those at `rx_valid` and above (R24, U3). -/
structure SameVisible (s t : State) : Prop where
  elsewhere : t = { s with rxbuf := t.rxbuf }
  length : t.rxbuf.length = s.rxbuf.length
  visible : ∀ i, i < s.rxValid.toNat → t.rxbuf[i]? = s.rxbuf[i]?

/-- The invariant a well-behaved caller keeps (R139): the flag says whether the bus is claimed. -/
abbrev State.flagMatchesPins (s : State) : Prop :=
  (s.inTransmission = true → s.held) ∧ (s.inTransmission = false → s.idle)

end Sys2Proof.Machine
end

