-- ==== Sys2Proof/Certificates/Slice0/Obligations.lean ====
section
/-! DEFINITION. The statements for the provers. Each says which rule of the spec it formalises. -/

open Sys2Proof Sys2Proof.Machine

/-! ### Reset, the command port, decoding -/

/-- R185. Reset puts every element of R40 at its value, whether at power-on or as a reset event, emits no event and no
response, leaves the platform's interrupt mask alone, and the block then waits for its first command. A reset event is
taken whether the block is ready or busy (R186). The contents of the Receive Buffer are not claimed: the spec leaves them
unspecified. -/
def Obligations.ResetPutsEveryElementAtItsValue : Prop :=
  (∀ c : Config, (State.resetWith c).AtReset ∧
    (c.wf = true → step (State.resetWith c) = .next (State.resetWith c))) ∧
  ∀ (s : State) (rest : List HostInput), s.cfg.wf = true → s.offered = .reset :: rest →
    ∃ t, step s = .next t ∧ t.AtReset ∧ t.cfg = s.cfg ∧ t.irq = s.irq ∧ t.trace = s.trace ∧
      t.responses = s.responses ∧ t.offered = rest

/-- R7, R8, R10 and U7, U8. The defaults, the ranges, and that parameters outside them give no step. That the refusal
happens in the step is the model's choice (log 11). -/
def Obligations.ParametersHaveTheirDefaultsAndRanges : Prop :=
  (State.reset.cfg.bufferCapacity = 32 ∧ State.reset.cfg.delayUs = 4 ∧ State.reset.cfg.startWaitRetries = 5000 ∧
    State.reset.cfg.pullupAssist = false) ∧
  (∀ c : Config, c.wf = true ↔
    (1 ≤ c.bufferCapacity.toNat ∧ 1 ≤ c.startWaitRetries.toNat ∧ c.sdaPin ≠ c.sclPin)) ∧
  ∀ s : State, s.cfg.wf = false → step s = .refused .configOutsideSpec

/-- A step of a ready block that is offered a legal packet is its command, run in the state in which the packet is taken from
the port and the block is busy, and in which nothing else has changed (R36, R75, R79). -/
def Obligations.StepRunsTheDecodedCommand : Prop :=
  ∀ (s : State) (p : Packet) (rest : List HostInput) (i : Instr),
    s.cfg.wf = true → s.sequencer = .ready → s.offered = .packet p :: rest → decode p = .ok i →
    step s = exec i { s with offered := rest, sequencer := .busy }

/-- R80, R163. A packet is illegal exactly in the three cases of R80, and an illegal packet changes nothing and is answered
by the ILLEGAL response. -/
def Obligations.PacketIsIllegalExactlyInTheThreeCases : Prop :=
  (∀ p : Packet, (∃ e, decode p = .error e) ↔
    ((fieldOp p.word).toNat = 0 ∨ (0x0B ≤ (fieldOp p.word).toNat ∧ (fieldOp p.word).toNat ≤ 0x1F) ∨
      (0x26 ≤ (fieldOp p.word).toNat ∧ (fieldOp p.word).toNat ≤ 0x2F) ∨ 0x33 ≤ (fieldOp p.word).toNat) ∨
    (∃ o : Opcode, o.code = fieldOp p.word ∧ p.word &&& o.format.mask &&& 0x00FFFFFFFFFFFFFF ≠ 0) ∨
    (∃ o : Opcode, o.code = fieldOp p.word ∧
      p.payload.length ≠ (if o = .writeBytes then (fieldQ p.word).toNat else 0))) ∧
  ∀ (s : State) (p : Packet) (rest : List HostInput) (e : Illegal),
    s.cfg.wf = true → s.sequencer = .ready → s.offered = .packet p :: rest → decode p = .error e →
    step s = .next { s with offered := rest, responses := s.responses ++ [0x80000000] }

/-- The encoder and the decoder agree on every command (R76 to R79, R88). -/
def Obligations.DecodeOfEncodeIsTheCommand : Prop :=
  ∀ i : Instr, i.wellFormed = true → decode (encode i) = .ok i

/-- Every legal packet is the encoding of the one command it decodes to (R77 to R80). -/
def Obligations.EncodeOfDecodeIsThePacket : Prop :=
  ∀ (p : Packet) (i : Instr), decode p = .ok i → encode i = p ∧ i.wellFormed = true

/-- Words written out from R76 to R78 decode to the commands they stand for, one for each format and some illegal ones. -/
def Obligations.SampleWordsDecode : Prop :=
  decode { word := 0x0100000000000000, payload := [] } = .ok .initializeBus ∧
  decode { word := 0x0250000000000000, payload := [] } = .ok (.beginTransmission 0x50) ∧
  decode { word := 0x03A5000000000000, payload := [] } = .error .reservedBit ∧
  decode { word := 0x0300A50000000000, payload := [] } = .ok (.write 0xA5) ∧
  decode { word := 0x0400020000000000, payload := [0xCA, 0xFE] } = .ok (.writeBytes 2 [0xCA, 0xFE]) ∧
  decode { word := 0x0400020000000000, payload := [0xCA] } = .error .payloadLength ∧
  decode { word := 0x2580000000000000, payload := [] } = .ok (.engRead true) ∧
  decode { word := 0x06D0040100000010, payload := [] } = .ok (.requestFrom 0x50 4 0x10 1 true) ∧
  decode { word := 0x3201000000000000, payload := [] } = .ok (.pinRead .scl) ∧
  decode { word := 0x0B00000000000000, payload := [] } = .error .undefinedOpcode

/-- R90. An accepted packet is answered by exactly one response word: `ILLEGAL` exactly when the packet is illegal, the
reserved bits 0, `VALUE` 0 when illegal. The block is then ready for what the host offers next. -/
def Obligations.EveryPacketHasOneResponse : Prop :=
  ∀ (s t : State) (p : Packet) (rest : List HostInput),
    s.cfg.wf = true → s.sequencer = .ready → s.offered = .packet p :: rest → step s = .next t →
    t.sequencer = .ready ∧ t.offered = rest ∧
    ∃ r : Response, t.responses = s.responses ++ [r] ∧ (r.getLsbD 31 = true ↔ ∃ e, decode p = .error e) ∧
      r.extractLsb' 16 15 = 0 ∧ ((∃ e, decode p = .error e) → r.extractLsb' 0 16 = 0)

/-- A ready block that is offered nothing waits (R185), and a busy block accepts no packet (R75). A busy block between steps
is the model's own state, which no run reaches (log 7). -/
def Obligations.BlockWaitsAndAcceptsNothingWhileBusy : Prop :=
  (∀ s : State, s.cfg.wf = true → s.sequencer = .ready → s.offered = [] → step s = .next s) ∧
  ∀ (s : State) (p : Packet) (rest : List HostInput),
    s.cfg.wf = true → s.sequencer = .busy → s.offered = .packet p :: rest → step s = .next s

/-- Operand assembly (R9, R61, R86, R87): the address byte, the clamps, the half delay, the internal address bytes. The two values of the
read/write bit are general knowledge of the spec's (U10). -/
def Obligations.OperandsAreAssembled : Prop :=
  (∀ a : BitVec 7, (addrByte a rwWrite).toNat = 2 * a.toNat ∧ (addrByte a rwRead).toNat = 2 * a.toNat + 1) ∧
  (∀ c : Config, (halfDelayUs c).toNat = c.delayUs.toNat / 2) ∧
  (∀ z : BitVec 8, (clampSize z).toNat = min z.toNat 3) ∧
  (∀ (c : Config) (q : BitVec 8), (clampQuantity c q).toNat = min q.toNat c.bufferCapacity.toNat) ∧
  ∀ i : BitVec 32, internalAddressBytes i 1 = [i.extractLsb' 0 8] ∧
    internalAddressBytes i 2 = [i.extractLsb' 8 8, i.extractLsb' 0 8] ∧
    internalAddressBytes i 3 = [i.extractLsb' 16 8, i.extractLsb' 8 8, i.extractLsb' 0 8]

/-- Whatever the assembler accepts is a well-formed command of the mnemonic written (R92). -/
def Obligations.AssembledCommandIsWellFormed : Prop :=
  ∀ (o : Opcode) (ops : List AsmOperand) (i : Instr), assemble o ops = some i → i.opcode = o ∧ i.wellFormed = true

/-- R92. Every command can be written: the operands of its row of the table, in the table's order, assemble to it, so each
operand stands in its field. -/
def Obligations.WrittenOperandsAssembleToTheCommand : Prop :=
  ∀ i : Instr, i.wellFormed = true → assemble i.opcode (writtenOperands i) = some i

/-- The pseudo-instructions of R93 expand as its table says, for every operand. -/
def Obligations.PseudoInstructionsExpand : Prop :=
  assemble .endTransmission [] = assemble .endTransmission [.num 1] ∧
  ∀ a q i z s : AsmOperand,
    assemble .requestFrom [a, q] = assemble .requestFrom [a, q, .num 0, .num 0, .num 1] ∧
    assemble .requestFrom [a, q, s] = assemble .requestFrom [a, q, .num 0, .num 0, s] ∧
    assemble .requestFrom [a, q, i, z] = assemble .requestFrom [a, q, i, z, .num 1]

/-! ### Family 1, the Pin Driver Shim -/

/-- R33, R55. What a pad does to its line, the level that gives the line, and that in every state of the invariant a pad
pulls low, pulls up or floats and never drives high. -/
def Obligations.PadActsOnItsLine : Prop :=
  (∀ l, ({ mode := .input, latch := l } : Pad).drive = .floats ∧
    ({ mode := .inputPullup, latch := l } : Pad).drive = .pullsUp) ∧
  ({ mode := .output, latch := .low } : Pad).drive = .pullsLow ∧
  ({ mode := .output, latch := .high } : Pad).drive = .drivesHigh ∧
  (∀ (low pullup : Bool), lineLevel .pullsLow low pullup = some .low ∧
    lineLevel .pullsUp low pullup = some (if low then .low else .high) ∧
    lineLevel .floats low pullup = (if low then some .low else if pullup then some .high else none)) ∧
  (∀ s : State, s.Inv → ∀ p, (s.pad p).drive ≠ .drivesHigh) ∧
  ∀ s : State, (s.held ↔ ∀ p, (s.pad p).drive = .pullsLow) ∧
    (s.idle ↔ ∀ p, (s.pad p).drive = .floats ∨ (s.pad p).drive = .pullsUp)

/-- R100. `PIN_RELEASE` completes from every state, with its three events, its mode and nothing else but the latch that
`INPUT_PULLUP` leaves unspecified. -/
def Obligations.PinReleaseReleasesItsPin : Prop :=
  (∀ p, encode (.pinRelease p) = { word := layoutWord 0x30 false (pinField p) 0 0 0, payload := [] }) ∧
  ∀ (p : Pin) (s : State), ∃ t, exec (.pinRelease p) s = .next t ∧
    t.trace = s.trace ++ [.maskInterrupts,
      .setPinMode p (if s.cfg.pullupAssist then .inputPullup else .input), .unmaskInterrupts] ∧
    t.responses = s.responses ++ [0x00000000] ∧ t.sequencer = .ready ∧ t.reads = s.reads ∧
    (t.pad p).mode = (if s.cfg.pullupAssist then .inputPullup else .input) ∧
    (t.pad p).drive = (if s.cfg.pullupAssist then .pullsUp else .floats) ∧
    (s.cfg.pullupAssist = false → (t.pad p).latch = (s.pad p).latch) ∧
    (∀ q, q ≠ p → t.pad q = s.pad q) ∧ KeptTransaction s t ∧ KeptBuffer s t ∧ KeptWorld s t

/-- R101 with its corner case (a). `PIN_DRIVE_LOW` completes wherever the latch is low or is written first, and faults
`DrivenHigh` where neither holds. -/
def Obligations.PinDriveLowDrivesItsPin : Prop :=
  (∀ p, encode (.pinDriveLow p) = { word := layoutWord 0x31 false (pinField p) 0 0 0, payload := [] }) ∧
  (∀ (p : Pin) (s : State), s.cfg.pullupAssist = true ∨ (s.pad p).latch = .low →
    ∃ t, exec (.pinDriveLow p) s = .next t ∧
      t.trace = s.trace ++ (if s.cfg.pullupAssist then
        [.maskInterrupts, .writeOutput p .low, .setPinMode p .output, .unmaskInterrupts]
        else [.maskInterrupts, .setPinMode p .output, .unmaskInterrupts]) ∧
      t.responses = s.responses ++ [0x00000000] ∧ t.sequencer = .ready ∧ t.reads = s.reads ∧
      t.latchDraws = s.latchDraws ∧
      t.pad p = { mode := .output, latch := .low } ∧ (t.pad p).drive = .pullsLow ∧
      (∀ q, q ≠ p → t.pad q = s.pad q) ∧ KeptTransaction s t ∧ KeptBuffer s t ∧ KeptWorld s t) ∧
  ∀ (p : Pin) (s : State), s.cfg.pullupAssist = false → (s.pad p).latch = .high →
    exec (.pinDriveLow p) s = .fault (.drivenHigh p)

/-- R102, R56. `PIN_READ` asks once, answers the level, and changes nothing. The level is the environment's: the next answer
listed for it, whatever that is. (Beyond the list it is a free value, log 4.) The last clause says the same of every answer
to come, in the terms the other statements use. -/
def Obligations.PinReadAnswersTheEnvironment : Prop :=
  (∀ p, encode (.pinRead p) = { word := layoutWord 0x32 false (pinField p) 0 0 0, payload := [] }) ∧
  (∀ (p : Pin) (s : State), ∃ t, exec (.pinRead p) s = .next t ∧
    t.trace = s.trace ++ [.readInput p (s.answer 0)] ∧
    t.responses = s.responses ++ [if s.answer 0 = .low then 0x00000000 else 0x00000001] ∧
    t.sequencer = .ready ∧ t.reads = s.reads + 1 ∧
    (∀ l, s.answers[s.reads]? = some l → t.trace = s.trace ++ [.readInput p l] ∧
      t.responses = s.responses ++ [if l = .low then 0x00000000 else 0x00000001]) ∧
    KeptPads s t ∧ KeptTransaction s t ∧ KeptBuffer s t ∧ KeptWorld s t ∧ t.irq = s.irq) ∧
  ∀ (s : State) (k : Nat) (l : Level), s.answers[s.reads + k]? = some l → s.answer k = l

/-- No command is refused, and the one way a command can fault is a latch that is high before it begins, without pull-up
assist (R33, R165, R179). -/
def Obligations.CommandsFaultOnlyForAHighLatch : Prop :=
  ∀ (i : Instr) (s : State),
    (∀ f, exec i s = .fault f → ∃ p, f = .drivenHigh p ∧ s.cfg.pullupAssist = false ∧ (s.pad p).latch = .high) ∧
    ∀ r, exec i s ≠ .refused r

/-- Every command's trace obeys the masking discipline of R103, and never writes a latch high (R105). -/
def Obligations.ModeSwitchesAreWindowed : Prop :=
  ∀ (i : Instr) (s t : State), exec i s = .next t → ∃ es, t.trace = s.trace ++ es ∧ windowed es = true

/-- After every command the platform's interrupt mask is as it was (R34), and no command changes the parameters (R39) or what
the host and the environment will still do. -/
def Obligations.EveryCommandKeepsTheWorld : Prop :=
  ∀ (i : Instr) (s t : State), exec i s = .next t → KeptWorld s t

/-! ### Family 2, the Protocol Engine -/

/-- R110. -/
def Obligations.InitializeChecksBothLines : Prop :=
  encode .initializeBus = { word := layoutWord 0x01 false 0 0 0 0, payload := [] } ∧
  ∀ s : State, s.drivable → ∃ t, exec .initializeBus s = .next t ∧
    Emitted s t (initializeLetters (s.answer 0) (s.answer 1))
      (if s.answer 0 = .high ∧ s.answer 1 = .high then 1 else 0) ∧
    t.bothReleased ∧ PinsOnly s t

/-- R111. -/
def Obligations.EngStartSendsTheAddress : Prop :=
  (∀ b, encode (.engStart b) = { word := layoutWord 0x20 false 0 b 0 0, payload := [] }) ∧
  ∀ (b : Byte) (s : State), s.drivable → ∃ t, exec (.engStart b) s = .next t ∧
    Emitted s t (startLetters b (s.answer 0)) (if s.answer 0 = .low then 1 else 0) ∧ t.held ∧ PinsOnly s t

/-- R112. -/
def Obligations.EngRepStartReleasesThenStarts : Prop :=
  (∀ b, encode (.engRepStart b) = { word := layoutWord 0x21 false 0 b 0 0, payload := [] }) ∧
  ∀ (b : Byte) (s : State), s.drivable → ∃ t, exec (.engRepStart b) s = .next t ∧
    Emitted s t (repStartLetters b (s.answer 0)) (if s.answer 0 = .low then 1 else 0) ∧ t.held ∧ PinsOnly s t

/-- R113. The first acknowledged attempt within the bound ends the command `HELD`. With none, every one of the
`START_WAIT_RETRIES` attempts is followed by a Stop and the bus is left released. -/
def Obligations.EngStartWaitRetriesUpToItsBound : Prop :=
  (∀ b, encode (.engStartWait b) = { word := layoutWord 0x22 false 0 b 0 0, payload := [] }) ∧
  ∀ (b : Byte) (s : State), s.drivable → 1 ≤ s.cfg.startWaitRetries.toNat →
    (∀ k, k < s.cfg.startWaitRetries.toNat → (∀ j, j < k → s.answer j = .high) → s.answer k = .low →
      ∃ t, exec (.engStartWait b) s = .next t ∧ Emitted s t (failedAttempts b k ++ startLetters b .low) 1 ∧
        t.held ∧ PinsOnly s t) ∧
    ((∀ j, j < s.cfg.startWaitRetries.toNat → s.answer j = .high) →
      ∃ t, exec (.engStartWait b) s = .next t ∧ Emitted s t (failedAttempts b s.cfg.startWaitRetries.toNat) 0 ∧
        t.bothReleased ∧ PinsOnly s t)

/-- R114. -/
def Obligations.EngStopReleasesTheBus : Prop :=
  encode .engStop = { word := layoutWord 0x23 false 0 0 0 0, payload := [] } ∧
  ∀ s : State, s.drivable → ∃ t, exec .engStop s = .next t ∧
    Emitted s t stopLetters 0 ∧ t.bothReleased ∧ PinsOnly s t

/-- R115. -/
def Obligations.EngWriteShiftsTheByteOut : Prop :=
  (∀ b, encode (.engWrite b) = { word := layoutWord 0x24 false 0 b 0 0, payload := [] }) ∧
  ∀ (b : Byte) (s : State), s.drivable → ∃ t, exec (.engWrite b) s = .next t ∧
    Emitted s t (writeLetters b (s.answer 0)) (if s.answer 0 = .low then 1 else 0) ∧ t.held ∧ PinsOnly s t

/-- R116. -/
def Obligations.EngReadShiftsTheByteIn : Prop :=
  (∀ last, encode (.engRead last) = { word := layoutWord 0x25 last 0 0 0 0, payload := [] }) ∧
  ∀ (last : Bool) (s : State), s.drivable → ∃ t, exec (.engRead last) s = .next t ∧
    Emitted s t (readLetters s.answer last) ((sampledByte s.answer).zeroExtend 16) ∧ t.held ∧ PinsOnly s t

/-- The table of R118: shim calls, full delays, half delays and reads of each procedure, those of Start-Wait with its success
after `k` failed attempts and with none. -/
def Obligations.ProceduresHaveTheCountsOfTheTable : Prop :=
  (∀ a b, counts (initializeLetters a b) = (4, 0, 0, 2)) ∧
  (∀ b ack, counts (startLetters b ack) = (30, 9, 2, 1)) ∧
  (∀ b ack, counts (repStartLetters b ack) = (32, 10, 2, 1)) ∧
  counts stopLetters = (3, 3, 0, 0) ∧
  (∀ b ack, counts (writeLetters b ack) = (28, 8, 2, 1)) ∧
  (∀ sample last, counts (readLetters sample last) = (21, 8, 2, 8)) ∧
  (∀ b k, counts (failedAttempts b k ++ startLetters b .low) = (33 * k + 30, 12 * k + 9, 2 * k + 2, k + 1)) ∧
  ∀ b n, counts (failedAttempts b n) = (33 * n, 12 * n, 2 * n, n)

/-- The conditions of R58 that the procedures put on the wire, read from the block's own pads: R110 corner case a, R111 and
its corner case a (R193), R112 and its corner case b (R196), R114 and its corner case a (R197), R115 from `HELD` and its
corner case e from `IDLE` (R194), R116 from `HELD`. -/
def Obligations.ProceduresMakeTheirConditions : Prop :=
  (∀ (b : Byte) (ack : Level) (c : Config) (sample : Nat → Level) (last : Bool) (a a' : Level),
    let idle : Lines := { sdaReleased := true, sclReleased := true }
    let held : Lines := { sdaReleased := false, sclReleased := false }
    conditions idle (expand c (startLetters b ack)) = [.start] ∧
    conditions held (expand c (startLetters b ack)) = [] ∧
    conditions held (expand c (repStartLetters b ack)) = [.start] ∧
    conditions idle (expand c (repStartLetters b ack)) = [.start] ∧
    conditions held (expand c stopLetters) = [.stop] ∧
    conditions idle (expand c stopLetters) = [.start, .stop] ∧
    conditions held (expand c (writeLetters b ack)) = [] ∧
    conditions idle (expand c (writeLetters b ack)) = (if b.getLsbD 7 then [] else [.start]) ∧
    conditions held (expand c (readLetters sample last)) = [] ∧
    conditions idle (expand c (initializeLetters a a')) = [.start] ∧
    conditions held (expand c (initializeLetters a a')) = []) ∧
  ∀ s : State, (s.idle → s.lines = { sdaReleased := true, sclReleased := true }) ∧
    (s.held → s.lines = { sdaReleased := false, sclReleased := false })

/-! ### Family 3, the Transfer Controller -/

/-- R130. -/
def Obligations.BeginTransmissionOpensAndRecords : Prop :=
  (∀ a, encode (.beginTransmission a) = { word := layoutWord 0x02 false a 0 0 0, payload := [] }) ∧
  ∀ (a : BitVec 7) (s : State), s.drivable → ∃ t, exec (.beginTransmission a) s = .next t ∧
    Emitted s t (openLetters s.inTransmission (addrByte a rwWrite) (s.answer 0)) 0 ∧
    t.inTransmission = true ∧ t.lastError = (if s.answer 0 = .low then .noError else .nackOnAddress) ∧
    t.held ∧ KeptBuffer s t ∧ KeptLatches s t ∧ KeptWorld s t

/-- R131. -/
def Obligations.WriteSendsAndRecordsTheFirstError : Prop :=
  (∀ b, encode (.write b) = { word := layoutWord 0x03 false 0 b 0 0, payload := [] }) ∧
  ∀ (b : Byte) (s : State), s.drivable → ∃ t, exec (.write b) s = .next t ∧
    Emitted s t (writeLetters b (s.answer 0)) (if s.answer 0 = .low then 1 else 0) ∧
    t.lastError = (if s.answer 0 = .high ∧ s.lastError = .noError then .nackOnData else s.lastError) ∧
    t.inTransmission = s.inTransmission ∧ t.held ∧ KeptBuffer s t ∧ KeptLatches s t ∧ KeptWorld s t

/-- R132. Every byte is sent whatever is acknowledged, and the response is the number of acknowledged bytes. -/
def Obligations.WriteBytesSendsAllAndCounts : Prop :=
  (∀ count payload, encode (.writeBytes count payload) = { word := layoutWord 0x04 false 0 count 0 0, payload := payload }) ∧
  ∀ (count : BitVec 8) (payload : List Byte) (s : State), s.drivable → payload.length = count.toNat →
    ∃ t, exec (.writeBytes count payload) s = .next t ∧
      Emitted s t (writesLetters payload s.answer) (BitVec.ofNat 16 (ackCount count.toNat s.answer)) ∧
      t.lastError = errorAfterWrites s.lastError count.toNat s.answer ∧
      t.inTransmission = s.inTransmission ∧
      (count ≠ 0 → t.held) ∧ (count = 0 → KeptPads s t ∧ t.irq = s.irq) ∧
      KeptBuffer s t ∧ KeptLatches s t ∧ KeptWorld s t

/-- R133. -/
def Obligations.EndTransmissionDeliversTheError : Prop :=
  (∀ sendStop, encode (.endTransmission sendStop) = { word := layoutWord 0x05 sendStop 0 0 0 0, payload := [] }) ∧
  ∀ (sendStop : Bool) (s : State), s.drivable → ∃ t, exec (.endTransmission sendStop) s = .next t ∧
    Emitted s t (if sendStop then stopLetters else []) (errNumber s.lastError) ∧
    t.lastError = .noError ∧ t.inTransmission = (if sendStop then false else s.inTransmission) ∧
    (sendStop = true → t.bothReleased) ∧ (sendStop = false → KeptPads s t ∧ t.irq = s.irq) ∧
    KeptBuffer s t ∧ KeptLatches s t ∧ KeptWorld s t

/-- R134, all eight steps. The command fails exactly when the read addressing is not acknowledged. The Reads are made and
stored either way. -/
def Obligations.RequestFromReadsIntoTheBuffer : Prop :=
  (∀ a q i z sendStop, encode (.requestFrom a q i z sendStop) = { word := layoutWord 0x06 sendStop a q z i, payload := [] }) ∧
  ∀ (a : BitVec 7) (q : BitVec 8) (i : BitVec 32) (z : BitVec 8) (sendStop : Bool) (s : State), s.drivable →
    ∃ t, exec (.requestFrom a q i z sendStop) s = .next t ∧
      Emitted s t (requestLetters s.inTransmission a (min q.toNat s.cfg.bufferCapacity.toNat) i z sendStop s.answer)
        (if s.answer (readAckIndex z) = .low then BitVec.ofNat 16 (min q.toNat s.cfg.bufferCapacity.toNat) else 0) ∧
      t.lastError = (if s.answer (readAckIndex z) = .low then .noError else .nackOnAddress) ∧
      t.rxValid.toNat =
        (if s.answer (readAckIndex z) = .low then min q.toNat s.cfg.bufferCapacity.toNat else 0) ∧
      t.rxCursor = 0 ∧
      t.inTransmission = (if sendStop then false else s.inTransmission || z != 0) ∧
      t.rxbuf.length = s.rxbuf.length ∧
      (∀ j, j < min q.toNat s.cfg.bufferCapacity.toNat → j < s.rxbuf.length →
        t.rxbuf[j]? = some (sampledByte (fun k => s.answer (readAckIndex z + 1 + (8 * j + k))))) ∧
      (∀ j, min q.toNat s.cfg.bufferCapacity.toNat ≤ j → t.rxbuf[j]? = s.rxbuf[j]?) ∧
      (sendStop = true → t.bothReleased) ∧ (sendStop = false → t.held) ∧ KeptLatches s t ∧ KeptWorld s t

/-- R132 corner case (d) and R88: a long write is its first byte and then the rest, with the responses added. -/
def Obligations.WriteBytesIsAWriteAndTheRest : Prop :=
  ∀ (b : Byte) (bs : List Byte) (s : State), s.drivable → bs.length < 255 →
    ∃ (t u : State) (v w : Value),
      exec (.write b) s = .next t ∧ t.responses = s.responses ++ [responseWord v] ∧
      exec (.writeBytes (BitVec.ofNat 8 bs.length) bs) t = .next u ∧ u.responses = t.responses ++ [responseWord w] ∧
      exec (.writeBytes (BitVec.ofNat 8 (bs.length + 1)) (b :: bs)) s =
        .next { u with responses := s.responses ++ [responseWord (v + w)] }

/-- R136. The acknowledge bits never shorten, lengthen or reorder what a controller command does on the pins: from states
that differ in the environment's answers only, the traces agree but for the answers in them. -/
def Obligations.ControllerTraceIsIndependentOfTheAnswers : Prop :=
  ∀ (i : Instr) (s : State) (f g : List Level), isController i = true → i.wellFormed = true → s.drivable →
    ∃ t u, exec i { s with answers := f } = .next t ∧ exec i { s with answers := g } = .next u ∧
      t.trace.map Event.hideAnswer = u.trace.map Event.hideAnswer ∧
      t.sda = u.sda ∧ t.scl = u.scl ∧ t.reads = u.reads ∧ t.inTransmission = u.inTransmission

/-- R139. A caller that writes only inside a transmission, and leaves a read without a stop and without an internal address
to one, keeps the flag in step with the pins. -/
def Obligations.ControllerKeepsTheFlagInStepWithThePins : Prop :=
  ∀ (i : Instr) (s t : State), isController i = true → i.wellFormed = true → s.drivable → callerMayIssue i s →
    s.flagMatchesPins → exec i s = .next t → t.flagMatchesPins

/-- R192, the hazard: such a read outside a transmission leaves the bus claimed with the flag clear. -/
def Obligations.RequestWithoutStopLeavesTheFlagClear : Prop :=
  ∀ (a : BitVec 7) (q : BitVec 8) (i : BitVec 32) (s : State), s.drivable → s.inTransmission = false →
    ∃ t, exec (.requestFrom a q i 0 false) s = .next t ∧ t.held ∧ t.inTransmission = false

/-- R65 with R58: the conditions of a whole read, from an idle bus outside a transmission: a START, a repeated START only
after an internal address, and a STOP only if asked for, with no STOP between the phases. -/
def Obligations.RequestFromMakesItsFrame : Prop :=
  ∀ (a : BitVec 7) (q : BitVec 8) (i : BitVec 32) (z : BitVec 8) (sendStop : Bool) (s : State),
    s.drivable → s.idle → s.inTransmission = false →
    ∃ t es, exec (.requestFrom a q i z sendStop) s = .next t ∧ t.trace = s.trace ++ es ∧
      conditions s.lines es =
        (if z = 0 then [.start] else [.start, .start]) ++ (if sendStop then [.stop] else [])

/-! ### Family 4, the Stream Wrapper -/

/-- R150. -/
def Obligations.AvailableCountsUnreadBytes : Prop :=
  encode .available = { word := layoutWord 0x07 false 0 0 0 0, payload := [] } ∧
  ∀ s : State, s.rxCursor ≤ s.rxValid →
    exec .available s = .next { s with
      responses := s.responses ++ [BitVec.ofNat 32 (s.rxValid.toNat - s.rxCursor.toNat)], sequencer := .ready }

/-- R151. -/
def Obligations.ReadTakesTheByteAtTheCursor : Prop :=
  encode .read = { word := layoutWord 0x08 false 0 0 0 0, payload := [] } ∧
  (∀ s : State, s.rxValid ≤ s.rxCursor →
    exec .read s = .next { s with responses := s.responses ++ [0x0000FFFF], sequencer := .ready }) ∧
  ∀ (s : State) (v : Byte), s.rxCursor < s.rxValid → s.rxbuf[s.rxCursor.toNat]? = some v →
    exec .read s = .next { s with
      rxCursor := s.rxCursor + 1, responses := s.responses ++ [v.zeroExtend 32], sequencer := .ready }

/-- R152. -/
def Obligations.PeekShowsTheByteAtTheCursor : Prop :=
  encode .peek = { word := layoutWord 0x09 false 0 0 0 0, payload := [] } ∧
  (∀ s : State, s.rxValid ≤ s.rxCursor →
    exec .peek s = .next { s with responses := s.responses ++ [0x0000FFFF], sequencer := .ready }) ∧
  ∀ (s : State) (v : Byte), s.rxCursor < s.rxValid → s.rxbuf[s.rxCursor.toNat]? = some v →
    exec .peek s = .next { s with responses := s.responses ++ [v.zeroExtend 32], sequencer := .ready }

/-- R153. -/
def Obligations.FlushHasNoEffect : Prop :=
  encode .flush = { word := layoutWord 0x0A false 0 0 0 0, payload := [] } ∧
  ∀ s : State, exec .flush s = .next { s with responses := s.responses ++ [0x00000000], sequencer := .ready }

/-! ### The whole machine -/

/-- The invariant holds after reset of every instance (R22, R26, R33). -/
def Obligations.ResetMeetsTheInvariant : Prop :=
  State.reset.Inv ∧ ∀ c : Config, c.wf = true → (State.resetWith c).Inv

/-- Every step keeps the invariant, from every state that meets it, whatever the host offers and the environment answers. -/
def Obligations.EveryStepKeepsTheInvariant : Prop :=
  ∀ s t : State, s.Inv → step s = .next t → t.Inv

/-- From every state that meets the invariant the machine steps: no run drives a line high, stops or is refused (R33, R179). -/
def Obligations.NoRunFaultsOrIsRefused : Prop :=
  ∀ s : State, s.Inv → ∃ t, step s = .next t

/-- R24, U3. What the Receive Buffer holds at and above `rx_valid` cannot be observed: two states that meet the invariant and
differ there only step to two states that differ there only, with the same responses and the same trace. -/
def Obligations.UnreadBufferIsNeverObserved : Prop :=
  ∀ s s' : State, s.Inv → SameVisible s s' →
    ∃ t t', step s = .next t ∧ step s' = .next t' ∧ SameVisible t t'

/-- R23. Only the five controller commands write the Transaction State. -/
def Obligations.OnlyTheControllerWritesTheTransactionState : Prop :=
  ∀ (i : Instr) (s t : State), isController i = false → exec i s = .next t → KeptTransaction s t

/-- R27. Only `REQUEST_FROM` writes the buffer and the valid length, and only it and `READ` write the cursor. -/
def Obligations.OnlyRequestFromFillsTheBuffer : Prop :=
  ∀ (i : Instr) (s t : State), exec i s = .next t →
    (∀ a q ia z sendStop, i ≠ .requestFrom a q ia z sendStop) →
    t.rxbuf = s.rxbuf ∧ t.rxValid = s.rxValid ∧ (i ≠ .read → t.rxCursor = s.rxCursor)

/-- R154. A stream command has no pin activity: it writes the cursor at most, and answers. -/
def Obligations.StreamCommandsHaveNoPinActivity : Prop :=
  ∀ (i : Instr) (s : State), isStream i = true → ∃ (t : State) (r : Response), exec i s = .next t ∧
    t = { s with rxCursor := t.rxCursor, responses := s.responses ++ [r], sequencer := .ready } ∧
    (i ≠ .read → t.rxCursor = s.rxCursor)

/-- R66. Nothing emitted is taken back: a step only adds to the trace and to the responses, and the parameters and the
environment's answers stay. -/
def Obligations.StepOnlyAddsToThePast : Prop :=
  ∀ s t : State, step s = .next t →
    s.trace <+: t.trace ∧ s.responses <+: t.responses ∧ s.reads ≤ t.reads ∧ t.cfg = s.cfg ∧ t.answers = s.answers
end

