-- ==== Sys2Proof/Laws/Assembler.lean ====
section
/-! SUPPORT. An operand as a command is written with it (30_encoding.md R92) is read back as the field it came from. -/

namespace Sys2Proof.Machine

@[simp] theorem asmBits_num (n : Nat) (b : BitVec n) : asmBits n (.num b.toNat) = some b := by
  simp [asmBits, b.isLt]

@[simp] theorem asmFlag_writeFlag (b : Bool) : asmFlag (writeFlag b) = some b := by
  cases b <;> rfl

@[simp] theorem asmPin_pin (p : Pin) : asmPin (.pin p) = some p := rfl

/-- The bytes of a payload, read back in order. -/
theorem asmBits_payload (bs : List Byte) : (bs.map (fun b => AsmOperand.num b.toNat)).mapM (asmBits 8) = some bs := by
  induction bs with
  | nil => rfl
  | cons b bs ih => simp [List.mapM_cons, ih]

end Sys2Proof.Machine
end

