-- ==== Sys2Proof/Laws/Codec.lean ====
section
/-! SUPPORT. The fields of a laid-out command word (30_encoding.md R76) and the rows' masks and matches (R77) over them. -/

namespace Sys2Proof

/-! ### The layout, bit by bit -/

theorem layout_getLsbD (op : BitVec 8) (s : Bool) (a : BitVec 7) (q z : BitVec 8) (i : BitVec 32) (k : Nat) :
    (layoutWord op s a q z i).getLsbD k =
      if k < 32 then i.getLsbD k
      else if k < 40 then z.getLsbD (k - 32)
      else if k < 48 then q.getLsbD (k - 40)
      else if k < 55 then a.getLsbD (k - 48)
      else if k < 56 then s
      else op.getLsbD (k - 56) := by
  simp only [layoutWord, BitVec.getLsbD_append, BitVec.getLsbD_ofBool]
  by_cases h1 : k < 32
  · simp [h1]
  by_cases h2 : k < 40
  · simp [h1, h2, show k - 32 < 8 by omega]
  by_cases h3 : k < 48
  · simp [h1, h2, h3, show ¬k - 32 < 8 by omega, show k - 40 < 8 by omega, show k - 32 - 8 = k - 40 by omega]
  have e : k - 32 - 8 - 8 = k - 48 := by omega
  by_cases h4 : k < 55
  · simp [h1, h2, h3, h4, show ¬k - 32 < 8 by omega, show ¬k - 32 - 8 < 8 by omega, e, show k - 48 < 7 by omega]
  by_cases h5 : k < 56
  · simp [h1, h2, h3, h4, h5, show ¬k - 32 < 8 by omega, show ¬k - 32 - 8 < 8 by omega, e, show ¬k - 48 < 7 by omega,
      show k - 48 - 7 = 0 by omega]
  · simp [h1, h2, h3, h4, h5, show ¬k - 32 < 8 by omega, show ¬k - 32 - 8 < 8 by omega, e, show ¬k - 48 < 7 by omega,
      show ¬k - 48 - 7 < 1 by omega, show k - 48 - 7 - 1 = k - 56 by omega]

section Fields

variable (op : BitVec 8) (s : Bool) (a : BitVec 7) (q z : BitVec 8) (i : BitVec 32)

@[simp] theorem fieldOp_layout : fieldOp (layoutWord op s a q z i) = op := by
  apply BitVec.eq_of_getLsbD_eq
  intro k hk
  simp only [fieldOp, BitVec.getLsbD_extractLsb', layout_getLsbD]
  simp [hk, show ¬56 + k < 32 by omega, show ¬56 + k < 40 by omega, show ¬56 + k < 48 by omega,
    show ¬56 + k < 55 by omega, show ¬56 + k < 56 by omega]

@[simp] theorem fieldS_layout : fieldS (layoutWord op s a q z i) = s := by
  rw [fieldS, layout_getLsbD]
  simp

@[simp] theorem fieldA_layout : fieldA (layoutWord op s a q z i) = a := by
  apply BitVec.eq_of_getLsbD_eq
  intro k hk
  simp only [fieldA, BitVec.getLsbD_extractLsb', layout_getLsbD]
  simp [hk, show ¬48 + k < 32 by omega, show ¬48 + k < 40 by omega, show ¬48 + k < 48 by omega,
    show 48 + k < 55 by omega]

@[simp] theorem fieldQ_layout : fieldQ (layoutWord op s a q z i) = q := by
  apply BitVec.eq_of_getLsbD_eq
  intro k hk
  simp only [fieldQ, BitVec.getLsbD_extractLsb', layout_getLsbD]
  simp [hk, show ¬40 + k < 32 by omega, show ¬40 + k < 40 by omega, show 40 + k < 48 by omega]

@[simp] theorem fieldZ_layout : fieldZ (layoutWord op s a q z i) = z := by
  apply BitVec.eq_of_getLsbD_eq
  intro k hk
  simp only [fieldZ, BitVec.getLsbD_extractLsb', layout_getLsbD]
  simp [hk, show ¬32 + k < 32 by omega, show 32 + k < 40 by omega]

@[simp] theorem fieldI_layout : fieldI (layoutWord op s a q z i) = i := by
  apply BitVec.eq_of_getLsbD_eq
  intro k hk
  simp only [fieldI, BitVec.getLsbD_extractLsb', layout_getLsbD]
  simp [hk]

theorem fieldP_eq (w : CommandWord) : fieldP w = if (fieldA w).getLsbD 0 then .scl else .sda := by
  simp [fieldP, fieldA]

@[simp] theorem fieldP_layout (p : Pin) : fieldP (layoutWord op s (pinField p) q z i) = p := by
  rw [fieldP_eq, fieldA_layout]
  cases p <;> rfl

end Fields

/-- Every word is the layout of its fields (R76). -/
theorem layout_fields (w : CommandWord) :
    layoutWord (fieldOp w) (fieldS w) (fieldA w) (fieldQ w) (fieldZ w) (fieldI w) = w := by
  apply BitVec.eq_of_getLsbD_eq
  intro k hk
  rw [layout_getLsbD]
  simp only [fieldOp, fieldS, fieldA, fieldQ, fieldZ, fieldI, BitVec.getLsbD_extractLsb']
  split_ifs with h1 h2 h3 h4 h5
  · simp [h1]
  · simp [show k - 32 < 8 by omega, show 32 + (k - 32) = k by omega]
  · simp [show k - 40 < 8 by omega, show 40 + (k - 40) = k by omega]
  · simp [show k - 48 < 7 by omega, show 48 + (k - 48) = k by omega]
  · simp [show k = 55 by omega]
  · simp [show k - 56 < 8 by omega, show 56 + (k - 56) = k by omega]

theorem and_layout (op op' : BitVec 8) (s s' : Bool) (a a' : BitVec 7) (q z q' z' : BitVec 8) (i i' : BitVec 32) :
    layoutWord op s a q z i &&& layoutWord op' s' a' q' z' i' =
      layoutWord (op &&& op') (s && s') (a &&& a') (q &&& q') (z &&& z') (i &&& i') := by
  apply BitVec.eq_of_getLsbD_eq
  intro k hk
  simp only [BitVec.getLsbD_and, layout_getLsbD]
  split_ifs <;> rfl

theorem layout_inj {op op' : BitVec 8} {s s' : Bool} {a a' : BitVec 7} {q z q' z' : BitVec 8} {i i' : BitVec 32} :
    layoutWord op s a q z i = layoutWord op' s' a' q' z' i' ↔
      op = op' ∧ s = s' ∧ a = a' ∧ q = q' ∧ z = z' ∧ i = i' := by
  constructor
  · intro h
    refine ⟨?_, ?_, ?_, ?_, ?_, ?_⟩
    · simpa using congrArg fieldOp h
    · simpa using congrArg fieldS h
    · simpa using congrArg fieldA h
    · simpa using congrArg fieldQ h
    · simpa using congrArg fieldZ h
    · simpa using congrArg fieldI h
  · rintro ⟨rfl, rfl, rfl, rfl, rfl, rfl⟩
    rfl

/-! ### Masks and matches as layouts (R77) -/

theorem mask_none : Format.none.mask = layoutWord 255 true 127 255 255 0xFFFFFFFF := by decide
theorem mask_address : Format.address.mask = layoutWord 255 true 0 255 255 0xFFFFFFFF := by decide
theorem mask_byte : Format.byte.mask = layoutWord 255 true 127 0 255 0xFFFFFFFF := by decide
theorem mask_flag : Format.flag.mask = layoutWord 255 false 127 255 255 0xFFFFFFFF := by decide
theorem mask_request : Format.request.mask = layoutWord 255 false 0 0 0 0 := by decide
theorem mask_pin : Format.pin.mask = layoutWord 255 true 126 255 255 0xFFFFFFFF := by decide

theorem matchWord_layout (o : Opcode) : o.matchWord = layoutWord o.code false 0 0 0 0 := by
  cases o <;> decide

theorem and_ones8 (x : BitVec 8) : x &&& 255#8 = x := BitVec.and_allOnes
theorem and_ones7 (x : BitVec 7) : x &&& 127#7 = x := BitVec.and_allOnes
theorem and_ones32 (x : BitVec 32) : x &&& 0xFFFFFFFF#32 = x := BitVec.and_allOnes
theorem and_zeros8 (x : BitVec 8) : x &&& 0#8 = 0#8 := BitVec.and_zero
theorem and_zeros7 (x : BitVec 7) : x &&& 0#7 = 0#7 := BitVec.and_zero
theorem and_zeros32 (x : BitVec 32) : x &&& 0#32 = 0#32 := BitVec.and_zero

/-! ### The opcode map (R78) -/

/-- The row of a code is found by it: no two rows share a code. -/
theorem ofCode_code (o : Opcode) : Opcode.ofCode o.code = some o := by
  cases o <;> decide

theorem code_of_ofCode {c : BitVec 8} {o : Opcode} (h : Opcode.ofCode c = some o) : o.code = c := by
  have := List.find?_some h
  simpa using this

theorem ofCode_none_iff (c : BitVec 8) : Opcode.ofCode c = none ↔ ∀ o : Opcode, o.code ≠ c := by
  constructor
  · intro h o ho
    rw [← ho, ofCode_code] at h
    cases h
  · intro h
    cases hc : Opcode.ofCode c with
    | none => rfl
    | some o => exact absurd (code_of_ofCode hc) (h o)

end Sys2Proof
end

