-- ==== Sys2Proof/Laws/State.lean ====
section
/-! SUPPORT. One lemma per field per update of State, each true by unfolding, so that no later proof unfolds an update. -/

namespace Sys2Proof.Machine

/-! ### What a pad does (R33) -/

@[simp] theorem drive_input (l : Level) : ({ mode := .input, latch := l } : Pad).drive = .floats := rfl

@[simp] theorem drive_inputPullup (l : Level) : ({ mode := .inputPullup, latch := l } : Pad).drive = .pullsUp := rfl

@[simp] theorem drive_output_low : ({ mode := .output, latch := .low } : Pad).drive = .pullsLow := rfl

@[simp] theorem drive_output_high : ({ mode := .output, latch := .high } : Pad).drive = .drivesHigh := rfl

/-- A pad releases its line exactly when it is no output. -/
theorem drive_released (x : Pad) : x.drive.released = (x.mode != .output) := by
  obtain ⟨m, l⟩ := x
  cases m <;> cases l <;> rfl

/-- A pad drives its line high exactly when it is an output with a `HIGH` latch (R33, R165). -/
theorem drive_eq_drivesHigh (x : Pad) : x.drive = .drivesHigh ↔ x.mode = .output ∧ x.latch = .high := by
  obtain ⟨m, l⟩ := x
  cases m <;> cases l <;> simp

end Sys2Proof.Machine

namespace Sys2Proof.Machine.State

/-! ### `setPad` -/

@[simp] theorem setPad_cfg (s : State) (p : Pin) (x : Pad) :
    (s.setPad p x).cfg = s.cfg := by
  cases p <;> rfl

@[simp] theorem setPad_inTransmission (s : State) (p : Pin) (x : Pad) :
    (s.setPad p x).inTransmission = s.inTransmission := by
  cases p <;> rfl

@[simp] theorem setPad_lastError (s : State) (p : Pin) (x : Pad) :
    (s.setPad p x).lastError = s.lastError := by
  cases p <;> rfl

@[simp] theorem setPad_rxbuf (s : State) (p : Pin) (x : Pad) :
    (s.setPad p x).rxbuf = s.rxbuf := by
  cases p <;> rfl

@[simp] theorem setPad_rxCursor (s : State) (p : Pin) (x : Pad) :
    (s.setPad p x).rxCursor = s.rxCursor := by
  cases p <;> rfl

@[simp] theorem setPad_rxValid (s : State) (p : Pin) (x : Pad) :
    (s.setPad p x).rxValid = s.rxValid := by
  cases p <;> rfl

@[simp] theorem setPad_sequencer (s : State) (p : Pin) (x : Pad) :
    (s.setPad p x).sequencer = s.sequencer := by
  cases p <;> rfl

@[simp] theorem setPad_irq (s : State) (p : Pin) (x : Pad) :
    (s.setPad p x).irq = s.irq := by
  cases p <;> rfl

@[simp] theorem setPad_offered (s : State) (p : Pin) (x : Pad) :
    (s.setPad p x).offered = s.offered := by
  cases p <;> rfl

@[simp] theorem setPad_answers (s : State) (p : Pin) (x : Pad) :
    (s.setPad p x).answers = s.answers := by
  cases p <;> rfl

@[simp] theorem setPad_reads (s : State) (p : Pin) (x : Pad) :
    (s.setPad p x).reads = s.reads := by
  cases p <;> rfl

@[simp] theorem setPad_latchDraws (s : State) (p : Pin) (x : Pad) :
    (s.setPad p x).latchDraws = s.latchDraws := by
  cases p <;> rfl

@[simp] theorem setPad_trace (s : State) (p : Pin) (x : Pad) :
    (s.setPad p x).trace = s.trace := by
  cases p <;> rfl

@[simp] theorem setPad_responses (s : State) (p : Pin) (x : Pad) :
    (s.setPad p x).responses = s.responses := by
  cases p <;> rfl

@[simp] theorem setPad_sda_sda (s : State) (x : Pad) : (s.setPad .sda x).sda = x := rfl
@[simp] theorem setPad_sda_scl (s : State) (x : Pad) : (s.setPad .sda x).scl = s.scl := rfl
@[simp] theorem setPad_scl_sda (s : State) (x : Pad) : (s.setPad .scl x).sda = s.sda := rfl
@[simp] theorem setPad_scl_scl (s : State) (x : Pad) : (s.setPad .scl x).scl = x := rfl
@[simp] theorem pad_sda (s : State) : s.pad .sda = s.sda := rfl
@[simp] theorem pad_scl (s : State) : s.pad .scl = s.scl := rfl
@[simp] theorem setPad_pad (s : State) (p : Pin) (x : Pad) : (s.setPad p x).pad p = x := by
  cases p <;> rfl

/-! ### `emit` -/

@[simp] theorem emit_cfg (s : State) (e : Event) :
    (s.emit e).cfg = s.cfg := rfl

@[simp] theorem emit_inTransmission (s : State) (e : Event) :
    (s.emit e).inTransmission = s.inTransmission := rfl

@[simp] theorem emit_lastError (s : State) (e : Event) :
    (s.emit e).lastError = s.lastError := rfl

@[simp] theorem emit_rxbuf (s : State) (e : Event) :
    (s.emit e).rxbuf = s.rxbuf := rfl

@[simp] theorem emit_rxCursor (s : State) (e : Event) :
    (s.emit e).rxCursor = s.rxCursor := rfl

@[simp] theorem emit_rxValid (s : State) (e : Event) :
    (s.emit e).rxValid = s.rxValid := rfl

@[simp] theorem emit_sda (s : State) (e : Event) :
    (s.emit e).sda = s.sda := rfl

@[simp] theorem emit_scl (s : State) (e : Event) :
    (s.emit e).scl = s.scl := rfl

@[simp] theorem emit_sequencer (s : State) (e : Event) :
    (s.emit e).sequencer = s.sequencer := rfl

@[simp] theorem emit_irq (s : State) (e : Event) :
    (s.emit e).irq = s.irq := rfl

@[simp] theorem emit_offered (s : State) (e : Event) :
    (s.emit e).offered = s.offered := rfl

@[simp] theorem emit_answers (s : State) (e : Event) :
    (s.emit e).answers = s.answers := rfl

@[simp] theorem emit_reads (s : State) (e : Event) :
    (s.emit e).reads = s.reads := rfl

@[simp] theorem emit_latchDraws (s : State) (e : Event) :
    (s.emit e).latchDraws = s.latchDraws := rfl

@[simp] theorem emit_trace (s : State) (e : Event) :
    (s.emit e).trace = s.trace ++ [e] := rfl

@[simp] theorem emit_responses (s : State) (e : Event) :
    (s.emit e).responses = s.responses := rfl

/-! ### `countRead` -/

@[simp] theorem countRead_cfg (s : State) :
    (s.countRead).cfg = s.cfg := rfl

@[simp] theorem countRead_inTransmission (s : State) :
    (s.countRead).inTransmission = s.inTransmission := rfl

@[simp] theorem countRead_lastError (s : State) :
    (s.countRead).lastError = s.lastError := rfl

@[simp] theorem countRead_rxbuf (s : State) :
    (s.countRead).rxbuf = s.rxbuf := rfl

@[simp] theorem countRead_rxCursor (s : State) :
    (s.countRead).rxCursor = s.rxCursor := rfl

@[simp] theorem countRead_rxValid (s : State) :
    (s.countRead).rxValid = s.rxValid := rfl

@[simp] theorem countRead_sda (s : State) :
    (s.countRead).sda = s.sda := rfl

@[simp] theorem countRead_scl (s : State) :
    (s.countRead).scl = s.scl := rfl

@[simp] theorem countRead_sequencer (s : State) :
    (s.countRead).sequencer = s.sequencer := rfl

@[simp] theorem countRead_irq (s : State) :
    (s.countRead).irq = s.irq := rfl

@[simp] theorem countRead_offered (s : State) :
    (s.countRead).offered = s.offered := rfl

@[simp] theorem countRead_answers (s : State) :
    (s.countRead).answers = s.answers := rfl

@[simp] theorem countRead_reads (s : State) :
    (s.countRead).reads = s.reads + 1 := rfl

@[simp] theorem countRead_latchDraws (s : State) :
    (s.countRead).latchDraws = s.latchDraws := rfl

@[simp] theorem countRead_trace (s : State) :
    (s.countRead).trace = s.trace := rfl

@[simp] theorem countRead_responses (s : State) :
    (s.countRead).responses = s.responses := rfl

/-! ### `afterMask` -/

@[simp] theorem afterMask_cfg (s : State) :
    (s.afterMask).cfg = s.cfg := rfl

@[simp] theorem afterMask_inTransmission (s : State) :
    (s.afterMask).inTransmission = s.inTransmission := rfl

@[simp] theorem afterMask_lastError (s : State) :
    (s.afterMask).lastError = s.lastError := rfl

@[simp] theorem afterMask_rxbuf (s : State) :
    (s.afterMask).rxbuf = s.rxbuf := rfl

@[simp] theorem afterMask_rxCursor (s : State) :
    (s.afterMask).rxCursor = s.rxCursor := rfl

@[simp] theorem afterMask_rxValid (s : State) :
    (s.afterMask).rxValid = s.rxValid := rfl

@[simp] theorem afterMask_sda (s : State) :
    (s.afterMask).sda = s.sda := rfl

@[simp] theorem afterMask_scl (s : State) :
    (s.afterMask).scl = s.scl := rfl

@[simp] theorem afterMask_sequencer (s : State) :
    (s.afterMask).sequencer = s.sequencer := rfl

@[simp] theorem afterMask_irq (s : State) :
    (s.afterMask).irq = { masked := true, saved := some s.irq.masked } := rfl

@[simp] theorem afterMask_offered (s : State) :
    (s.afterMask).offered = s.offered := rfl

@[simp] theorem afterMask_answers (s : State) :
    (s.afterMask).answers = s.answers := rfl

@[simp] theorem afterMask_reads (s : State) :
    (s.afterMask).reads = s.reads := rfl

@[simp] theorem afterMask_latchDraws (s : State) :
    (s.afterMask).latchDraws = s.latchDraws := rfl

@[simp] theorem afterMask_trace (s : State) :
    (s.afterMask).trace = s.trace := rfl

@[simp] theorem afterMask_responses (s : State) :
    (s.afterMask).responses = s.responses := rfl

/-! ### `storeRx` -/

@[simp] theorem storeRx_cfg (s : State) (i : Nat) (v : Byte) :
    (s.storeRx i v).cfg = s.cfg := rfl

@[simp] theorem storeRx_inTransmission (s : State) (i : Nat) (v : Byte) :
    (s.storeRx i v).inTransmission = s.inTransmission := rfl

@[simp] theorem storeRx_lastError (s : State) (i : Nat) (v : Byte) :
    (s.storeRx i v).lastError = s.lastError := rfl

@[simp] theorem storeRx_rxbuf (s : State) (i : Nat) (v : Byte) :
    (s.storeRx i v).rxbuf = s.rxbuf.set i v := rfl

@[simp] theorem storeRx_rxCursor (s : State) (i : Nat) (v : Byte) :
    (s.storeRx i v).rxCursor = s.rxCursor := rfl

@[simp] theorem storeRx_rxValid (s : State) (i : Nat) (v : Byte) :
    (s.storeRx i v).rxValid = s.rxValid := rfl

@[simp] theorem storeRx_sda (s : State) (i : Nat) (v : Byte) :
    (s.storeRx i v).sda = s.sda := rfl

@[simp] theorem storeRx_scl (s : State) (i : Nat) (v : Byte) :
    (s.storeRx i v).scl = s.scl := rfl

@[simp] theorem storeRx_sequencer (s : State) (i : Nat) (v : Byte) :
    (s.storeRx i v).sequencer = s.sequencer := rfl

@[simp] theorem storeRx_irq (s : State) (i : Nat) (v : Byte) :
    (s.storeRx i v).irq = s.irq := rfl

@[simp] theorem storeRx_offered (s : State) (i : Nat) (v : Byte) :
    (s.storeRx i v).offered = s.offered := rfl

@[simp] theorem storeRx_answers (s : State) (i : Nat) (v : Byte) :
    (s.storeRx i v).answers = s.answers := rfl

@[simp] theorem storeRx_reads (s : State) (i : Nat) (v : Byte) :
    (s.storeRx i v).reads = s.reads := rfl

@[simp] theorem storeRx_latchDraws (s : State) (i : Nat) (v : Byte) :
    (s.storeRx i v).latchDraws = s.latchDraws := rfl

@[simp] theorem storeRx_trace (s : State) (i : Nat) (v : Byte) :
    (s.storeRx i v).trace = s.trace := rfl

@[simp] theorem storeRx_responses (s : State) (i : Nat) (v : Byte) :
    (s.storeRx i v).responses = s.responses := rfl

/-! ### `setRxCursor` -/

@[simp] theorem setRxCursor_cfg (s : State) (c : BitVec 8) :
    (s.setRxCursor c).cfg = s.cfg := rfl

@[simp] theorem setRxCursor_inTransmission (s : State) (c : BitVec 8) :
    (s.setRxCursor c).inTransmission = s.inTransmission := rfl

@[simp] theorem setRxCursor_lastError (s : State) (c : BitVec 8) :
    (s.setRxCursor c).lastError = s.lastError := rfl

@[simp] theorem setRxCursor_rxbuf (s : State) (c : BitVec 8) :
    (s.setRxCursor c).rxbuf = s.rxbuf := rfl

@[simp] theorem setRxCursor_rxCursor (s : State) (c : BitVec 8) :
    (s.setRxCursor c).rxCursor = c := rfl

@[simp] theorem setRxCursor_rxValid (s : State) (c : BitVec 8) :
    (s.setRxCursor c).rxValid = s.rxValid := rfl

@[simp] theorem setRxCursor_sda (s : State) (c : BitVec 8) :
    (s.setRxCursor c).sda = s.sda := rfl

@[simp] theorem setRxCursor_scl (s : State) (c : BitVec 8) :
    (s.setRxCursor c).scl = s.scl := rfl

@[simp] theorem setRxCursor_sequencer (s : State) (c : BitVec 8) :
    (s.setRxCursor c).sequencer = s.sequencer := rfl

@[simp] theorem setRxCursor_irq (s : State) (c : BitVec 8) :
    (s.setRxCursor c).irq = s.irq := rfl

@[simp] theorem setRxCursor_offered (s : State) (c : BitVec 8) :
    (s.setRxCursor c).offered = s.offered := rfl

@[simp] theorem setRxCursor_answers (s : State) (c : BitVec 8) :
    (s.setRxCursor c).answers = s.answers := rfl

@[simp] theorem setRxCursor_reads (s : State) (c : BitVec 8) :
    (s.setRxCursor c).reads = s.reads := rfl

@[simp] theorem setRxCursor_latchDraws (s : State) (c : BitVec 8) :
    (s.setRxCursor c).latchDraws = s.latchDraws := rfl

@[simp] theorem setRxCursor_trace (s : State) (c : BitVec 8) :
    (s.setRxCursor c).trace = s.trace := rfl

@[simp] theorem setRxCursor_responses (s : State) (c : BitVec 8) :
    (s.setRxCursor c).responses = s.responses := rfl

/-! ### `setRxValid` -/

@[simp] theorem setRxValid_cfg (s : State) (v : BitVec 8) :
    (s.setRxValid v).cfg = s.cfg := rfl

@[simp] theorem setRxValid_inTransmission (s : State) (v : BitVec 8) :
    (s.setRxValid v).inTransmission = s.inTransmission := rfl

@[simp] theorem setRxValid_lastError (s : State) (v : BitVec 8) :
    (s.setRxValid v).lastError = s.lastError := rfl

@[simp] theorem setRxValid_rxbuf (s : State) (v : BitVec 8) :
    (s.setRxValid v).rxbuf = s.rxbuf := rfl

@[simp] theorem setRxValid_rxCursor (s : State) (v : BitVec 8) :
    (s.setRxValid v).rxCursor = s.rxCursor := rfl

@[simp] theorem setRxValid_rxValid (s : State) (v : BitVec 8) :
    (s.setRxValid v).rxValid = v := rfl

@[simp] theorem setRxValid_sda (s : State) (v : BitVec 8) :
    (s.setRxValid v).sda = s.sda := rfl

@[simp] theorem setRxValid_scl (s : State) (v : BitVec 8) :
    (s.setRxValid v).scl = s.scl := rfl

@[simp] theorem setRxValid_sequencer (s : State) (v : BitVec 8) :
    (s.setRxValid v).sequencer = s.sequencer := rfl

@[simp] theorem setRxValid_irq (s : State) (v : BitVec 8) :
    (s.setRxValid v).irq = s.irq := rfl

@[simp] theorem setRxValid_offered (s : State) (v : BitVec 8) :
    (s.setRxValid v).offered = s.offered := rfl

@[simp] theorem setRxValid_answers (s : State) (v : BitVec 8) :
    (s.setRxValid v).answers = s.answers := rfl

@[simp] theorem setRxValid_reads (s : State) (v : BitVec 8) :
    (s.setRxValid v).reads = s.reads := rfl

@[simp] theorem setRxValid_latchDraws (s : State) (v : BitVec 8) :
    (s.setRxValid v).latchDraws = s.latchDraws := rfl

@[simp] theorem setRxValid_trace (s : State) (v : BitVec 8) :
    (s.setRxValid v).trace = s.trace := rfl

@[simp] theorem setRxValid_responses (s : State) (v : BitVec 8) :
    (s.setRxValid v).responses = s.responses := rfl

/-! ### `setInTransmission` -/

@[simp] theorem setInTransmission_cfg (s : State) (b : Bool) :
    (s.setInTransmission b).cfg = s.cfg := rfl

@[simp] theorem setInTransmission_inTransmission (s : State) (b : Bool) :
    (s.setInTransmission b).inTransmission = b := rfl

@[simp] theorem setInTransmission_lastError (s : State) (b : Bool) :
    (s.setInTransmission b).lastError = s.lastError := rfl

@[simp] theorem setInTransmission_rxbuf (s : State) (b : Bool) :
    (s.setInTransmission b).rxbuf = s.rxbuf := rfl

@[simp] theorem setInTransmission_rxCursor (s : State) (b : Bool) :
    (s.setInTransmission b).rxCursor = s.rxCursor := rfl

@[simp] theorem setInTransmission_rxValid (s : State) (b : Bool) :
    (s.setInTransmission b).rxValid = s.rxValid := rfl

@[simp] theorem setInTransmission_sda (s : State) (b : Bool) :
    (s.setInTransmission b).sda = s.sda := rfl

@[simp] theorem setInTransmission_scl (s : State) (b : Bool) :
    (s.setInTransmission b).scl = s.scl := rfl

@[simp] theorem setInTransmission_sequencer (s : State) (b : Bool) :
    (s.setInTransmission b).sequencer = s.sequencer := rfl

@[simp] theorem setInTransmission_irq (s : State) (b : Bool) :
    (s.setInTransmission b).irq = s.irq := rfl

@[simp] theorem setInTransmission_offered (s : State) (b : Bool) :
    (s.setInTransmission b).offered = s.offered := rfl

@[simp] theorem setInTransmission_answers (s : State) (b : Bool) :
    (s.setInTransmission b).answers = s.answers := rfl

@[simp] theorem setInTransmission_reads (s : State) (b : Bool) :
    (s.setInTransmission b).reads = s.reads := rfl

@[simp] theorem setInTransmission_latchDraws (s : State) (b : Bool) :
    (s.setInTransmission b).latchDraws = s.latchDraws := rfl

@[simp] theorem setInTransmission_trace (s : State) (b : Bool) :
    (s.setInTransmission b).trace = s.trace := rfl

@[simp] theorem setInTransmission_responses (s : State) (b : Bool) :
    (s.setInTransmission b).responses = s.responses := rfl

/-! ### `setLastError` -/

@[simp] theorem setLastError_cfg (s : State) (e : Err) :
    (s.setLastError e).cfg = s.cfg := rfl

@[simp] theorem setLastError_inTransmission (s : State) (e : Err) :
    (s.setLastError e).inTransmission = s.inTransmission := rfl

@[simp] theorem setLastError_lastError (s : State) (e : Err) :
    (s.setLastError e).lastError = e := rfl

@[simp] theorem setLastError_rxbuf (s : State) (e : Err) :
    (s.setLastError e).rxbuf = s.rxbuf := rfl

@[simp] theorem setLastError_rxCursor (s : State) (e : Err) :
    (s.setLastError e).rxCursor = s.rxCursor := rfl

@[simp] theorem setLastError_rxValid (s : State) (e : Err) :
    (s.setLastError e).rxValid = s.rxValid := rfl

@[simp] theorem setLastError_sda (s : State) (e : Err) :
    (s.setLastError e).sda = s.sda := rfl

@[simp] theorem setLastError_scl (s : State) (e : Err) :
    (s.setLastError e).scl = s.scl := rfl

@[simp] theorem setLastError_sequencer (s : State) (e : Err) :
    (s.setLastError e).sequencer = s.sequencer := rfl

@[simp] theorem setLastError_irq (s : State) (e : Err) :
    (s.setLastError e).irq = s.irq := rfl

@[simp] theorem setLastError_offered (s : State) (e : Err) :
    (s.setLastError e).offered = s.offered := rfl

@[simp] theorem setLastError_answers (s : State) (e : Err) :
    (s.setLastError e).answers = s.answers := rfl

@[simp] theorem setLastError_reads (s : State) (e : Err) :
    (s.setLastError e).reads = s.reads := rfl

@[simp] theorem setLastError_latchDraws (s : State) (e : Err) :
    (s.setLastError e).latchDraws = s.latchDraws := rfl

@[simp] theorem setLastError_trace (s : State) (e : Err) :
    (s.setLastError e).trace = s.trace := rfl

@[simp] theorem setLastError_responses (s : State) (e : Err) :
    (s.setLastError e).responses = s.responses := rfl

/-! ### `deliver` -/

@[simp] theorem deliver_cfg (s : State) (r : Response) :
    (s.deliver r).cfg = s.cfg := rfl

@[simp] theorem deliver_inTransmission (s : State) (r : Response) :
    (s.deliver r).inTransmission = s.inTransmission := rfl

@[simp] theorem deliver_lastError (s : State) (r : Response) :
    (s.deliver r).lastError = s.lastError := rfl

@[simp] theorem deliver_rxbuf (s : State) (r : Response) :
    (s.deliver r).rxbuf = s.rxbuf := rfl

@[simp] theorem deliver_rxCursor (s : State) (r : Response) :
    (s.deliver r).rxCursor = s.rxCursor := rfl

@[simp] theorem deliver_rxValid (s : State) (r : Response) :
    (s.deliver r).rxValid = s.rxValid := rfl

@[simp] theorem deliver_sda (s : State) (r : Response) :
    (s.deliver r).sda = s.sda := rfl

@[simp] theorem deliver_scl (s : State) (r : Response) :
    (s.deliver r).scl = s.scl := rfl

@[simp] theorem deliver_sequencer (s : State) (r : Response) :
    (s.deliver r).sequencer = .ready := rfl

@[simp] theorem deliver_irq (s : State) (r : Response) :
    (s.deliver r).irq = s.irq := rfl

@[simp] theorem deliver_offered (s : State) (r : Response) :
    (s.deliver r).offered = s.offered := rfl

@[simp] theorem deliver_answers (s : State) (r : Response) :
    (s.deliver r).answers = s.answers := rfl

@[simp] theorem deliver_reads (s : State) (r : Response) :
    (s.deliver r).reads = s.reads := rfl

@[simp] theorem deliver_latchDraws (s : State) (r : Response) :
    (s.deliver r).latchDraws = s.latchDraws := rfl

@[simp] theorem deliver_trace (s : State) (r : Response) :
    (s.deliver r).trace = s.trace := rfl

@[simp] theorem deliver_responses (s : State) (r : Response) :
    (s.deliver r).responses = s.responses ++ [r] := rfl

/-! ### `accept` -/

@[simp] theorem accept_cfg (s : State) (rest : List HostInput) :
    (s.accept rest).cfg = s.cfg := rfl

@[simp] theorem accept_inTransmission (s : State) (rest : List HostInput) :
    (s.accept rest).inTransmission = s.inTransmission := rfl

@[simp] theorem accept_lastError (s : State) (rest : List HostInput) :
    (s.accept rest).lastError = s.lastError := rfl

@[simp] theorem accept_rxbuf (s : State) (rest : List HostInput) :
    (s.accept rest).rxbuf = s.rxbuf := rfl

@[simp] theorem accept_rxCursor (s : State) (rest : List HostInput) :
    (s.accept rest).rxCursor = s.rxCursor := rfl

@[simp] theorem accept_rxValid (s : State) (rest : List HostInput) :
    (s.accept rest).rxValid = s.rxValid := rfl

@[simp] theorem accept_sda (s : State) (rest : List HostInput) :
    (s.accept rest).sda = s.sda := rfl

@[simp] theorem accept_scl (s : State) (rest : List HostInput) :
    (s.accept rest).scl = s.scl := rfl

@[simp] theorem accept_sequencer (s : State) (rest : List HostInput) :
    (s.accept rest).sequencer = .busy := rfl

@[simp] theorem accept_irq (s : State) (rest : List HostInput) :
    (s.accept rest).irq = s.irq := rfl

@[simp] theorem accept_offered (s : State) (rest : List HostInput) :
    (s.accept rest).offered = rest := rfl

@[simp] theorem accept_answers (s : State) (rest : List HostInput) :
    (s.accept rest).answers = s.answers := rfl

@[simp] theorem accept_reads (s : State) (rest : List HostInput) :
    (s.accept rest).reads = s.reads := rfl

@[simp] theorem accept_latchDraws (s : State) (rest : List HostInput) :
    (s.accept rest).latchDraws = s.latchDraws := rfl

@[simp] theorem accept_trace (s : State) (rest : List HostInput) :
    (s.accept rest).trace = s.trace := rfl

@[simp] theorem accept_responses (s : State) (rest : List HostInput) :
    (s.accept rest).responses = s.responses := rfl

/-! ### `resetBlock` -/

@[simp] theorem resetBlock_cfg (s : State) (rest : List HostInput) :
    (s.resetBlock rest).cfg = s.cfg := rfl

@[simp] theorem resetBlock_inTransmission (s : State) (rest : List HostInput) :
    (s.resetBlock rest).inTransmission = false := rfl

@[simp] theorem resetBlock_lastError (s : State) (rest : List HostInput) :
    (s.resetBlock rest).lastError = .noError := rfl

@[simp] theorem resetBlock_rxbuf (s : State) (rest : List HostInput) :
    (s.resetBlock rest).rxbuf = List.replicate s.cfg.bufferCapacity.toNat 0 := rfl

@[simp] theorem resetBlock_rxCursor (s : State) (rest : List HostInput) :
    (s.resetBlock rest).rxCursor = 0 := rfl

@[simp] theorem resetBlock_rxValid (s : State) (rest : List HostInput) :
    (s.resetBlock rest).rxValid = 0 := rfl

@[simp] theorem resetBlock_sda (s : State) (rest : List HostInput) :
    (s.resetBlock rest).sda = { mode := .input, latch := .low } := rfl

@[simp] theorem resetBlock_scl (s : State) (rest : List HostInput) :
    (s.resetBlock rest).scl = { mode := .input, latch := .low } := rfl

@[simp] theorem resetBlock_sequencer (s : State) (rest : List HostInput) :
    (s.resetBlock rest).sequencer = .ready := rfl

@[simp] theorem resetBlock_irq (s : State) (rest : List HostInput) :
    (s.resetBlock rest).irq = s.irq := rfl

@[simp] theorem resetBlock_offered (s : State) (rest : List HostInput) :
    (s.resetBlock rest).offered = rest := rfl

@[simp] theorem resetBlock_answers (s : State) (rest : List HostInput) :
    (s.resetBlock rest).answers = s.answers := rfl

@[simp] theorem resetBlock_reads (s : State) (rest : List HostInput) :
    (s.resetBlock rest).reads = s.reads := rfl

@[simp] theorem resetBlock_latchDraws (s : State) (rest : List HostInput) :
    (s.resetBlock rest).latchDraws = s.latchDraws := rfl

@[simp] theorem resetBlock_trace (s : State) (rest : List HostInput) :
    (s.resetBlock rest).trace = s.trace := rfl

@[simp] theorem resetBlock_responses (s : State) (rest : List HostInput) :
    (s.resetBlock rest).responses = s.responses := rfl

/-! ### `offerFirst` -/

@[simp] theorem offerFirst_cfg (s : State) (p : Packet) :
    (s.offerFirst p).cfg = s.cfg := rfl

@[simp] theorem offerFirst_inTransmission (s : State) (p : Packet) :
    (s.offerFirst p).inTransmission = s.inTransmission := rfl

@[simp] theorem offerFirst_lastError (s : State) (p : Packet) :
    (s.offerFirst p).lastError = s.lastError := rfl

@[simp] theorem offerFirst_rxbuf (s : State) (p : Packet) :
    (s.offerFirst p).rxbuf = s.rxbuf := rfl

@[simp] theorem offerFirst_rxCursor (s : State) (p : Packet) :
    (s.offerFirst p).rxCursor = s.rxCursor := rfl

@[simp] theorem offerFirst_rxValid (s : State) (p : Packet) :
    (s.offerFirst p).rxValid = s.rxValid := rfl

@[simp] theorem offerFirst_sda (s : State) (p : Packet) :
    (s.offerFirst p).sda = s.sda := rfl

@[simp] theorem offerFirst_scl (s : State) (p : Packet) :
    (s.offerFirst p).scl = s.scl := rfl

@[simp] theorem offerFirst_sequencer (s : State) (p : Packet) :
    (s.offerFirst p).sequencer = .ready := rfl

@[simp] theorem offerFirst_irq (s : State) (p : Packet) :
    (s.offerFirst p).irq = s.irq := rfl

@[simp] theorem offerFirst_offered (s : State) (p : Packet) :
    (s.offerFirst p).offered = .packet p :: s.offered := rfl

@[simp] theorem offerFirst_answers (s : State) (p : Packet) :
    (s.offerFirst p).answers = s.answers := rfl

@[simp] theorem offerFirst_reads (s : State) (p : Packet) :
    (s.offerFirst p).reads = s.reads := rfl

@[simp] theorem offerFirst_latchDraws (s : State) (p : Packet) :
    (s.offerFirst p).latchDraws = s.latchDraws := rfl

@[simp] theorem offerFirst_trace (s : State) (p : Packet) :
    (s.offerFirst p).trace = s.trace := rfl

@[simp] theorem offerFirst_responses (s : State) (p : Packet) :
    (s.offerFirst p).responses = s.responses := rfl

end Sys2Proof.Machine.State
end

