-- ==== Sys2Proof/Laws/Shim.lean ====
section
/-! SUPPORT. What one procedure of the shim does (40_pin_driver.md), said once: from a drivable state it answers, and the
state after it is a `play` of its character of the compact trace (00_scope.md R19). Later proofs cite these lemmas and the
field lemmas of `play`, and unfold no procedure. -/

namespace Sys2Proof.Machine

/-! ### Running a procedure -/

theorem run_pure {α : Type} (a : α) (s : State) : (pure a : Run α) s = .ok (a, s) := rfl

theorem run_get (s : State) : (get : Run State) s = .ok (s, s) := rfl

theorem run_set (t s : State) : (set t : Run PUnit) s = .ok (⟨⟩, t) := rfl

theorem run_modify (f : State → State) (s : State) : (modify f : Run PUnit) s = .ok (⟨⟩, f s) := rfl

/-- If the first procedure answers, the second runs in the state it left. -/
theorem run_bind {α β : Type} {x : Run α} {s t : State} {a : α} (h : x s = .ok (a, t)) (f : α → Run β) :
    (x >>= f) s = f a t := by
  simp only [bind, StateT.bind, h]
  rfl

/-- If the first procedure faults, so does the whole. -/
theorem run_bind_error {α β : Type} {x : Run α} {s : State} {e : Fault} (h : x s = .error e) (f : α → Run β) :
    (x >>= f) s = .error e := by
  simp only [bind, StateT.bind, h]
  rfl

/-- Inversion: a sequence that answers is two procedures that answer. -/
theorem run_bind_ok {α β : Type} {x : Run α} {f : α → Run β} {s t : State} {b : β}
    (h : (x >>= f) s = .ok (b, t)) : ∃ a u, x s = .ok (a, u) ∧ f a u = .ok (b, t) := by
  cases hx : x s with
  | error e => rw [run_bind_error hx] at h; cases h
  | ok r => exact ⟨r.1, r.2, rfl, by rw [run_bind hx] at h; exact h⟩

/-! ### The state after a release, a drive-low, a delay, a question -/

/-- The state after `release(p)`. -/
def State.released (s : State) (p : Pin) : State :=
  { s.setPad p
      { mode := releasedMode s.cfg
        latch := if s.cfg.pullupAssist then Config.freeLatch s.latchDraws else (s.pad p).latch } with
    irq := { masked := s.irq.masked, saved := none }
    latchDraws := s.latchDraws + (if s.cfg.pullupAssist then 1 else 0)
    trace := s.trace ++ releaseEvents s.cfg p }

/-- The state after `drive_low(p)`. -/
def State.drivenLow (s : State) (p : Pin) : State :=
  { s.setPad p { mode := .output, latch := .low } with
    irq := { masked := s.irq.masked, saved := none }
    trace := s.trace ++ driveLowEvents s.cfg p }

/-- The state after `read(p)` answered `l`. -/
def State.asked (s : State) (p : Pin) (l : Level) : State := (s.emit (.readInput p l)).countRead

/-- The state after one character of a compact trace. -/
def Letter.play (s : State) : Letter → State
  | .relSda => s.released .sda
  | .lowSda => s.drivenLow .sda
  | .relScl => s.released .scl
  | .lowScl => s.drivenLow .scl
  | .full => s.emit (.delayMicroseconds s.cfg.delayUs)
  | .half => s.emit (.delayMicroseconds (halfDelayUs s.cfg))
  | .askSda l => s.asked .sda l
  | .askScl l => s.asked .scl l

/-- The state after a compact trace. -/
def State.play (s : State) (ls : List Letter) : State := ls.foldl Letter.play s

@[simp] theorem play_nil (s : State) : s.play [] = s := rfl

theorem play_cons (s : State) (l : Letter) (ls : List Letter) : s.play (l :: ls) = (l.play s).play ls := rfl

theorem play_append (s : State) (ls ms : List Letter) : s.play (ls ++ ms) = (s.play ls).play ms :=
  List.foldl_append

/-! ### The procedures of the shim -/

/-- Where the latch of pin `p` may be driven: `drivable`, for one pin. -/
theorem drivable_pin {s : State} (h : s.drivable) (p : Pin) :
    s.cfg.pullupAssist = true ∨ (s.pad p).latch = .low := by
  rcases h with h | ⟨h₁, h₂⟩
  · exact .inl h
  · cases p
    · exact .inr h₁
    · exact .inr h₂

theorem maskInterrupts_run (s : State) : maskInterrupts s = .ok ((), (s.emit .maskInterrupts).afterMask) := rfl

theorem unmaskInterrupts_run (s : State) : unmaskInterrupts s = .ok ((), (s.emit .unmaskInterrupts).afterUnmask) := rfl

theorem writeOutput_run (s : State) (p : Pin) (l : Level) :
    writeOutput p l s = .ok ((), (s.emit (.writeOutput p l)).afterWriteOutput p l) := rfl

theorem setPinMode_run (s : State) (p : Pin) (m : PinMode) (h : m = .output → (s.pad p).latch = .low) :
    setPinMode p m s = .ok ((), (s.emit (.setPinMode p m)).afterSetPinMode p m) := by
  cases m with
  | output => simp only [setPinMode, Pad.drive, h rfl]
  | input => rfl
  | inputPullup => rfl

theorem setPinMode_fault (s : State) (p : Pin) (h : (s.pad p).latch = .high) :
    setPinMode p .output s = .error (.drivenHigh p) := by
  simp only [setPinMode, Pad.drive, h]

theorem release_run (s : State) (p : Pin) : release p s = .ok ((), s.released p) := by
  unfold release
  rw [run_bind (maskInterrupts_run s), run_bind (run_get _)]
  cases hp : s.cfg.pullupAssist
  · simp only [State.afterMask_cfg, State.emit_cfg, hp, Bool.false_eq_true, if_false]
    rw [run_bind (setPinMode_run _ _ _ (by simp)), unmaskInterrupts_run]
    cases p <;> simp [State.released, State.afterSetPinMode, State.afterUnmask, State.afterMask, State.emit, State.setPad,
      State.pad, releasedMode, releaseEvents, hp]
  · simp only [State.afterMask_cfg, State.emit_cfg, hp, if_true]
    rw [run_bind (setPinMode_run _ _ _ (by simp)), unmaskInterrupts_run]
    cases p <;> simp [State.released, State.afterSetPinMode, State.afterUnmask, State.afterMask, State.emit, State.setPad,
      releasedMode, releaseEvents, hp]

theorem driveLow_run {s : State} {p : Pin} (h : s.cfg.pullupAssist = true ∨ (s.pad p).latch = .low) :
    driveLow p s = .ok ((), s.drivenLow p) := by
  unfold driveLow
  rw [run_bind (maskInterrupts_run s), run_bind (run_get _)]
  cases hp : s.cfg.pullupAssist
  · have hl : (s.pad p).latch = .low := by simpa [hp] using h
    simp only [State.afterMask_cfg, State.emit_cfg, hp, Bool.false_eq_true, if_false]
    rw [run_bind (setPinMode_run _ _ _ (by cases p <;> simpa using hl)), unmaskInterrupts_run]
    cases p <;> simp_all [State.drivenLow, State.afterSetPinMode, State.afterUnmask, State.afterMask, State.emit,
      State.setPad, State.pad, driveLowEvents]
  · simp only [State.afterMask_cfg, State.emit_cfg, hp, if_true]
    rw [run_bind (writeOutput_run _ _ _), run_bind (setPinMode_run _ _ _ (by
      cases p <;> simp [State.afterWriteOutput, State.emit, State.setPad, State.pad])), unmaskInterrupts_run]
    cases p <;> simp [State.drivenLow, State.afterSetPinMode, State.afterUnmask, State.afterMask, State.afterWriteOutput,
      State.emit, State.setPad, State.pad, driveLowEvents, hp]

/-- `drive_low(p)` faults exactly where the latch is high and not written first (R101 a, R165). -/
theorem driveLow_fault {s : State} {p : Pin} (hp : s.cfg.pullupAssist = false) (h : (s.pad p).latch = .high) :
    driveLow p s = .error (.drivenHigh p) := by
  unfold driveLow
  rw [run_bind (maskInterrupts_run s), run_bind (run_get _)]
  simp only [State.afterMask_cfg, State.emit_cfg, hp, Bool.false_eq_true, if_false]
  rw [run_bind_error (setPinMode_fault _ _ (by cases p <;> simpa using h))]

theorem readPin_run (s : State) (p : Pin) : readPin p s = .ok (s.answer 0, s.asked p (s.answer 0)) := rfl

theorem waitFull_run (s : State) : waitFull s = .ok ((), s.play [.full]) := rfl

theorem waitHalf_run (s : State) : waitHalf s = .ok ((), s.play [.half]) := rfl

/-! ### What a compact trace leaves alone -/

@[simp] theorem play_cfg (s : State) (ls : List Letter) : (s.play ls).cfg = s.cfg := by
  induction ls generalizing s with
  | nil => rfl
  | cons l ls ih => rw [play_cons, ih]; cases l <;> rfl

@[simp] theorem play_inTransmission (s : State) (ls : List Letter) : (s.play ls).inTransmission = s.inTransmission := by
  induction ls generalizing s with
  | nil => rfl
  | cons l ls ih => rw [play_cons, ih]; cases l <;> rfl

@[simp] theorem play_lastError (s : State) (ls : List Letter) : (s.play ls).lastError = s.lastError := by
  induction ls generalizing s with
  | nil => rfl
  | cons l ls ih => rw [play_cons, ih]; cases l <;> rfl

@[simp] theorem play_rxbuf (s : State) (ls : List Letter) : (s.play ls).rxbuf = s.rxbuf := by
  induction ls generalizing s with
  | nil => rfl
  | cons l ls ih => rw [play_cons, ih]; cases l <;> rfl

@[simp] theorem play_rxCursor (s : State) (ls : List Letter) : (s.play ls).rxCursor = s.rxCursor := by
  induction ls generalizing s with
  | nil => rfl
  | cons l ls ih => rw [play_cons, ih]; cases l <;> rfl

@[simp] theorem play_rxValid (s : State) (ls : List Letter) : (s.play ls).rxValid = s.rxValid := by
  induction ls generalizing s with
  | nil => rfl
  | cons l ls ih => rw [play_cons, ih]; cases l <;> rfl

@[simp] theorem play_sequencer (s : State) (ls : List Letter) : (s.play ls).sequencer = s.sequencer := by
  induction ls generalizing s with
  | nil => rfl
  | cons l ls ih => rw [play_cons, ih]; cases l <;> rfl

@[simp] theorem play_offered (s : State) (ls : List Letter) : (s.play ls).offered = s.offered := by
  induction ls generalizing s with
  | nil => rfl
  | cons l ls ih => rw [play_cons, ih]; cases l <;> rfl

@[simp] theorem play_answers (s : State) (ls : List Letter) : (s.play ls).answers = s.answers := by
  induction ls generalizing s with
  | nil => rfl
  | cons l ls ih => rw [play_cons, ih]; cases l <;> rfl

@[simp] theorem play_responses (s : State) (ls : List Letter) : (s.play ls).responses = s.responses := by
  induction ls generalizing s with
  | nil => rfl
  | cons l ls ih => rw [play_cons, ih]; cases l <;> rfl

@[simp] theorem play_masked (s : State) (ls : List Letter) : (s.play ls).irq.masked = s.irq.masked := by
  induction ls generalizing s with
  | nil => rfl
  | cons l ls ih => rw [play_cons, ih]; cases l <;> rfl

theorem play_noWindow {s : State} (ls : List Letter) (h : s.irq.saved = none) : (s.play ls).irq.saved = none := by
  induction ls generalizing s with
  | nil => exact h
  | cons l ls ih => rw [play_cons]; exact ih (by cases l <;> first | rfl | exact h)

/-! ### What a compact trace does -/

@[simp] theorem expand_nil (c : Config) : expand c [] = [] := rfl

@[simp] theorem expand_append (c : Config) (ls ms : List Letter) :
    expand c (ls ++ ms) = expand c ls ++ expand c ms := List.flatMap_append

@[simp] theorem askCount_append (ls ms : List Letter) : askCount (ls ++ ms) = askCount ls + askCount ms :=
  List.countP_append

@[simp] theorem play_trace (s : State) (ls : List Letter) : (s.play ls).trace = s.trace ++ expand s.cfg ls := by
  induction ls generalizing s with
  | nil => simp [expand]
  | cons l ls ih =>
    have hc : (l.play s).cfg = s.cfg := by cases l <;> rfl
    have ht : (l.play s).trace = s.trace ++ l.events s.cfg := by cases l <;> rfl
    rw [play_cons, ih, hc, ht, List.append_assoc]
    rfl

@[simp] theorem play_reads (s : State) (ls : List Letter) : (s.play ls).reads = s.reads + askCount ls := by
  induction ls generalizing s with
  | nil => rfl
  | cons l ls ih =>
    have h : (l.play s).reads = s.reads + askCount [l] := by cases l <;> rfl
    rw [play_cons, ih, h, Nat.add_assoc, ← askCount_append]
    rfl

/-- The next answers after a compact trace are the ones beyond those it took. -/
@[simp] theorem play_answer (s : State) (ls : List Letter) (k : Nat) :
    (s.play ls).answer k = s.answer (askCount ls + k) := by
  simp only [State.answer, play_answers, play_reads, Nat.add_assoc]

/-- No letter makes a drivable state undrivable (R33). -/
theorem play_drivable {s : State} (ls : List Letter) (h : s.drivable) : (s.play ls).drivable := by
  induction ls generalizing s with
  | nil => exact h
  | cons l ls ih =>
    rw [play_cons]
    refine ih ?_
    rcases h with h | ⟨h₁, h₂⟩
    · exact .inl (by cases l <;> exact h)
    · cases hp : s.cfg.pullupAssist
      · exact .inr (by
          cases l <;> simp [Letter.play, State.released, State.drivenLow, State.asked, State.emit, State.countRead,
            State.setPad, State.pad, hp, h₁, h₂])
      · exact .inl (by cases l <;> exact hp)

/-- Without pull-up assist a compact trace changes no latch of a drivable state. -/
theorem play_keptLatches {s : State} (ls : List Letter) (h : s.drivable) : KeptLatches s (s.play ls) := by
  intro hp
  have h₁ : s.sda.latch = .low ∧ s.scl.latch = .low := by simpa [State.drivable, hp] using h
  have h₂ := play_drivable ls h
  simp only [State.drivable, play_cfg, hp, Bool.false_eq_true, false_or] at h₂
  exact ⟨h₂.1.trans h₁.1.symm, h₂.2.trans h₁.2.symm⟩

/-! ### The pads after a compact trace -/

/-- Every trace of a `Start`, `Write` or `Read` ends with `chd`, and so leaves the pins `HELD` (R118). -/
theorem play_held (s : State) (ls : List Letter) : (s.play (ls ++ [.lowScl, .half, .lowSda])).held := by
  rw [play_append]
  exact ⟨rfl, rfl⟩

/-- A `Stop` leaves both pins released (R114, R118). -/
theorem play_stop_released (s : State) (ls : List Letter) : (s.play (ls ++ stopLetters)).bothReleased := by
  simp only [State.bothReleased, play_cfg]
  rw [play_append, ← play_cfg s ls]
  exact ⟨rfl, rfl⟩

/-- `initialize` leaves both pins released (R110, R118). -/
theorem play_initialize_released (s : State) (a b : Level) : (s.play (initializeLetters a b)).bothReleased := ⟨rfl, rfl⟩

/-- The mode of a release is never `OUTPUT`. -/
theorem releasedMode_ne_output (c : Config) : releasedMode c ≠ .output := by
  unfold releasedMode
  split <;> simp

theorem idle_of_bothReleased {s : State} (h : s.bothReleased) : s.idle :=
  ⟨h.1 ▸ releasedMode_ne_output _, h.2 ▸ releasedMode_ne_output _⟩

/-- `HELD` pins are drivable. -/
theorem drivable_of_held {s : State} (h : s.held) : s.drivable := .inr ⟨by rw [h.1], by rw [h.2]⟩

end Sys2Proof.Machine
end

