-- ==== Sys2Proof/Laws/Engine.lean ====
section
/-! SUPPORT. What each procedure of the Protocol Engine does (41_protocol_engine.md), said once: from a drivable state it
answers its result and leaves the state a `play` of its compact trace. -/

namespace Sys2Proof.Machine

/-! ### One character as a procedure -/

theorem relSda_run (s : State) : release .sda s = .ok ((), s.play [.relSda]) := release_run s .sda

theorem relScl_run (s : State) : release .scl s = .ok ((), s.play [.relScl]) := release_run s .scl

theorem lowSda_run {s : State} (h : s.drivable) : driveLow .sda s = .ok ((), s.play [.lowSda]) :=
  driveLow_run (drivable_pin h .sda)

theorem lowScl_run {s : State} (h : s.drivable) : driveLow .scl s = .ok ((), s.play [.lowScl]) :=
  driveLow_run (drivable_pin h .scl)

theorem askSda_run (s : State) : readPin .sda s = .ok (s.answer 0, s.play [.askSda (s.answer 0)]) := rfl

theorem askScl_run (s : State) : readPin .scl s = .ok (s.answer 0, s.play [.askScl (s.answer 0)]) := rfl

theorem setSda_run {s : State} (h : s.drivable) (bit : Bool) :
    setSda bit s = .ok ((), s.play [if bit then .relSda else .lowSda]) := by
  cases bit
  · exact lowSda_run h
  · exact relSda_run s

/-! ### The byte shifter -/

/-- The data-bit letters of `sendBits b n`. -/
def sendLetters (b : Byte) : Nat → List Letter
  | 0 => []
  | i + 1 => bitLetters (b.getLsbD i) ++ sendLetters b i

theorem sendBits_run (b : Byte) (n : Nat) {s : State} (h : s.drivable) :
    sendBits b n s = .ok ((), s.play (sendLetters b n)) := by
  induction n generalizing s with
  | zero => rfl
  | succ n ih =>
    unfold sendBits
    rw [run_bind (setSda_run h _), run_bind (relScl_run _), run_bind (waitFull_run _),
      run_bind (lowScl_run (by simp only [← play_append]; exact play_drivable _ h))]
    simp only [← play_append]
    rw [ih (play_drivable _ h), ← play_append]
    rfl

theorem askCount_sendLetters (b : Byte) (n : Nat) : askCount (sendLetters b n) = 0 := by
  induction n with
  | zero => rfl
  | succ n ih =>
    rw [sendLetters, askCount_append, ih]
    cases b.getLsbD n <;> rfl

theorem askCount_write (b : Byte) (ack : Level) : askCount (writeLetters b ack) = 1 := by
  have : writeLetters b ack = sendLetters b 8 ++ [.relSda, .relScl, .half, .askSda ack, .lowScl, .half, .lowSda] := rfl
  rw [this, askCount_append, askCount_sendLetters]
  rfl

theorem writeByte_run (b : Byte) {s : State} (h : s.drivable) :
    writeByte b s = .ok (acknowledged (s.answer 0), s.play (writeLetters b (s.answer 0))) := by
  unfold writeByte
  rw [run_bind (sendBits_run b 8 h), run_bind (relSda_run _), run_bind (relScl_run _), run_bind (waitHalf_run _),
    run_bind (askSda_run _)]
  simp only [← play_append, play_answer, askCount_append, askCount_sendLetters]
  rw [run_bind (lowScl_run (play_drivable _ h)), run_bind (waitHalf_run _)]
  simp only [← play_append]
  rw [run_bind (lowSda_run (play_drivable _ h)), run_pure, ← play_append]
  rfl

/-- The letters of `n` data bits of a Read. -/
def receiveLetters : Nat → (Nat → Level) → List Letter
  | 0, _ => []
  | n + 1, f => [.full, .relScl, .askSda (f 0), .lowScl] ++ receiveLetters n (fun k => f (k + 1))

/-- `n` samples shifted into `r`. -/
def shiftAll : Nat → (Nat → Level) → Byte → Byte
  | 0, _, r => r
  | n + 1, f, r => shiftAll n (fun k => f (k + 1)) (shiftIn r (f 0))

theorem askCount_receiveLetters (n : Nat) (f : Nat → Level) : askCount (receiveLetters n f) = n := by
  induction n generalizing f with
  | zero => rfl
  | succ n ih =>
    rw [receiveLetters, askCount_append, ih, Nat.add_comm]
    rfl

theorem receiveBits_run (n : Nat) (r : Byte) {s : State} (h : s.drivable) :
    receiveBits n r s = .ok (shiftAll n s.answer r, s.play (receiveLetters n s.answer)) := by
  induction n generalizing r s with
  | zero => rfl
  | succ n ih =>
    unfold receiveBits
    rw [run_bind (waitFull_run _), run_bind (relScl_run _), run_bind (askSda_run _)]
    simp only [← play_append, play_answer]
    rw [run_bind (lowScl_run (play_drivable _ h)), ← play_append, ih _ (play_drivable _ h), ← play_append]
    have hk : (s.play ([Letter.full] ++ [Letter.relScl] ++ [Letter.askSda (s.answer (askCount ([Letter.full] ++
        [Letter.relScl]) + 0))] ++ [Letter.lowScl])).answer = fun k => s.answer (k + 1) := by
      funext k
      rw [play_answer, Nat.add_comm]
      rfl
    rw [hk]
    rfl

/-- Eight samples shifted in are the byte they spell, the first one in bit 7 (R60, R116). -/
theorem shiftAll_eight (f : Nat → Level) : shiftAll 8 f 0 = sampledByte f := by
  simp only [shiftAll, sampledByte]
  generalize f 0 = a, f 1 = b, f 2 = c, f 3 = d, f 4 = e, f 5 = g, f 6 = h, f 7 = i
  cases a <;> cases b <;> cases c <;> cases d <;> cases e <;> cases g <;> cases h <;> cases i <;> rfl

theorem askCount_read (f : Nat → Level) (last : Bool) : askCount (readLetters f last) = 8 := by
  cases last <;> rfl

theorem readByte_run (last : Bool) {s : State} (h : s.drivable) :
    readByte last s = .ok (sampledByte s.answer, s.play (readLetters s.answer last)) := by
  have ha : (s.play [Letter.relSda]).answer = s.answer := by
    funext k
    rw [play_answer]
    simp [askCount, Letter.asks]
  unfold readByte
  rw [run_bind (relSda_run _), run_bind (receiveBits_run 8 0 (play_drivable _ h)), ha, shiftAll_eight, ← play_append]
  have hd : ∀ ls, (s.play ls).drivable := fun ls => play_drivable ls h
  cases last
  · simp only [Bool.false_eq_true, if_false]
    rw [run_bind (lowSda_run (hd _)), run_bind (relScl_run _), run_bind (waitHalf_run _)]
    simp only [← play_append]
    rw [run_bind (lowScl_run (hd _)), run_bind (waitHalf_run _)]
    simp only [← play_append]
    rw [run_bind (lowSda_run (hd _)), run_pure, ← play_append]
    rfl
  · simp only [if_true]
    rw [run_bind (relSda_run _), run_bind (relScl_run _), run_bind (waitHalf_run _)]
    simp only [← play_append]
    rw [run_bind (lowScl_run (hd _)), run_bind (waitHalf_run _)]
    simp only [← play_append]
    rw [run_bind (lowSda_run (hd _)), run_pure, ← play_append]
    rfl

/-! ### Conditions -/

theorem askCount_start (b : Byte) (ack : Level) : askCount (startLetters b ack) = 1 := by
  rw [startLetters, askCount_append, askCount_write]
  rfl

theorem askCount_repStart (b : Byte) (ack : Level) : askCount (repStartLetters b ack) = 1 := by
  rw [repStartLetters, askCount_append, askCount_start]
  rfl

theorem start_run (b : Byte) {s : State} (h : s.drivable) :
    start b s = .ok (acknowledged (s.answer 0), s.play (startLetters b (s.answer 0))) := by
  unfold start
  rw [run_bind (lowSda_run h), run_bind (waitFull_run _)]
  simp only [← play_append]
  rw [run_bind (lowScl_run (play_drivable _ h)), ← play_append, writeByte_run b (play_drivable _ h), ← play_append,
    play_answer]
  rfl

theorem repStart_run (b : Byte) {s : State} (h : s.drivable) :
    repStart b s = .ok (acknowledged (s.answer 0), s.play (repStartLetters b (s.answer 0))) := by
  unfold repStart
  rw [run_bind (relSda_run _), run_bind (relScl_run _), run_bind (waitFull_run _)]
  simp only [← play_append]
  rw [start_run b (play_drivable _ h), ← play_append, play_answer]
  rfl

theorem stop_run {s : State} (h : s.drivable) : stop s = .ok ((), s.play stopLetters) := by
  unfold stop
  rw [run_bind (lowSda_run h), run_bind (waitFull_run _), run_bind (relScl_run _), run_bind (waitFull_run _),
    run_bind (relSda_run _), waitFull_run]
  simp only [← play_append]
  rfl

theorem initBus_run {s : State} (h : s.drivable) :
    initBus s = .ok (decide (s.answer 0 = .high ∧ s.answer 1 = .high),
      s.play (initializeLetters (s.answer 0) (s.answer 1))) := by
  unfold initBus
  rw [run_bind (lowSda_run h), run_bind (lowScl_run (play_drivable _ h)), run_bind (relSda_run _),
    run_bind (relScl_run _), run_bind (askSda_run _), run_bind (askScl_run _), run_pure]
  simp only [← play_append, play_answer]
  rfl

/-! ### Start-Wait -/

theorem askCount_failedAttempts (b : Byte) (n : Nat) : askCount (failedAttempts b n) = n := by
  induction n with
  | zero => rfl
  | succ n ih =>
    have hs : failedAttempts b (n + 1) = (startLetters b .high ++ stopLetters) ++ failedAttempts b n := by
      simp [failedAttempts, List.replicate_succ]
    rw [hs, askCount_append, askCount_append, ih, askCount_start, Nat.add_comm]
    rfl

theorem failedAttempts_succ (b : Byte) (n : Nat) :
    failedAttempts b (n + 1) = startLetters b .high ++ stopLetters ++ failedAttempts b n := by
  simp [failedAttempts, List.replicate_succ]

theorem askCount_stop : askCount stopLetters = 0 := rfl

/-- One failed attempt and what is left of the loop (R113). -/
theorem startAttempts_high (b : Byte) (n : Nat) {s : State} (h : s.drivable) (ha : s.answer 0 = .high) :
    startAttempts b (n + 1) s = startAttempts b n (s.play (startLetters b .high ++ stopLetters)) := by
  have hn : ¬acknowledged .high = true := by decide
  rw [startAttempts, run_bind (start_run b h), ha, if_neg hn, run_bind (stop_run (play_drivable _ h)), ← play_append]

/-- The attempt that is acknowledged ends the loop (R113). -/
theorem startAttempts_low (b : Byte) (n : Nat) {s : State} (h : s.drivable) (ha : s.answer 0 = .low) :
    startAttempts b (n + 1) s = .ok (true, s.play (startLetters b .low)) := by
  have hy : acknowledged .low = true := rfl
  rw [startAttempts, run_bind (start_run b h), ha, if_pos hy, run_pure]

/-- `k` attempts fail and the next one is acknowledged (R113). -/
theorem startAttempts_success (b : Byte) (k n : Nat) {s : State} (h : s.drivable) (hk : k < n)
    (hf : ∀ j, j < k → s.answer j = .high) (ha : s.answer k = .low) :
    startAttempts b n s = .ok (true, s.play (failedAttempts b k ++ startLetters b .low)) := by
  induction k generalizing n s with
  | zero =>
    obtain ⟨m, rfl⟩ : ∃ m, n = m + 1 := ⟨n - 1, by omega⟩
    exact startAttempts_low b m h ha
  | succ k ih =>
    obtain ⟨m, rfl⟩ : ∃ m, n = m + 1 := ⟨n - 1, by omega⟩
    have hc : askCount (startLetters b .high ++ stopLetters) = 1 := by
      rw [askCount_append, askCount_start, askCount_stop]
    rw [startAttempts_high b m h (hf 0 (by omega)), ih m (play_drivable _ h) (by omega)
      (fun j hj => by rw [play_answer, hc]; exact hf _ (by omega)) (by rw [play_answer, hc, Nat.add_comm]; exact ha),
      ← play_append, failedAttempts_succ]
    simp only [List.append_assoc]

/-- All `n` attempts fail (R113, D17). -/
theorem startAttempts_failure (b : Byte) (n : Nat) {s : State} (h : s.drivable)
    (hf : ∀ j, j < n → s.answer j = .high) :
    startAttempts b n s = .ok (false, s.play (failedAttempts b n)) := by
  induction n generalizing s with
  | zero => rfl
  | succ n ih =>
    have hc : askCount (startLetters b .high ++ stopLetters) = 1 := by
      rw [askCount_append, askCount_start, askCount_stop]
    rw [startAttempts_high b n h (hf 0 (by omega)), ih (play_drivable _ h)
      (fun j hj => by rw [play_answer, hc]; exact hf _ (by omega)), ← play_append, failedAttempts_succ]

/-- The loop always answers, and its state is the play of some compact trace (R118). -/
theorem startAttempts_run (b : Byte) (n : Nat) {s : State} (h : s.drivable) :
    (∃ k, k < n ∧ (∀ j, j < k → s.answer j = .high) ∧ s.answer k = .low ∧
        startAttempts b n s = .ok (true, s.play (failedAttempts b k ++ startLetters b .low))) ∨
      ((∀ j, j < n → s.answer j = .high) ∧ startAttempts b n s = .ok (false, s.play (failedAttempts b n))) := by
  by_cases hall : ∀ j, j < n → s.answer j = .high
  · exact .inr ⟨hall, startAttempts_failure b n h hall⟩
  · have hex : ∃ j, j < n ∧ s.answer j = .low := by
      by_contra hno
      refine hall fun j hj => ?_
      cases hj' : s.answer j
      · exact absurd ⟨j, hj, hj'⟩ hno
      · rfl
    have hmin := Nat.find_spec hex
    have hbelow : ∀ j, j < Nat.find hex → s.answer j = .high := fun j hj => by
      cases hj' : s.answer j
      · exact absurd ⟨hj.trans hmin.1, hj'⟩ (Nat.find_min hex hj)
      · rfl
    exact .inl ⟨Nat.find hex, hmin.1, hbelow, hmin.2, startAttempts_success b _ n h hmin.1 hbelow hmin.2⟩

theorem startWait_eq (b : Byte) (s : State) : startWait b s = startAttempts b s.cfg.startWaitRetries.toNat s := rfl

end Sys2Proof.Machine
end

