-- ==== Sys2Proof/Laws/Controller.lean ====
section
/-! SUPPORT. What each procedure of the Transfer Controller does (42_transfer_controller.md), said once: the state after it is
a `play` of its compact trace with the Transaction State and the Receive Buffer written as its rule says. -/

namespace Sys2Proof.Machine

/-! ### A compact trace commutes with what it does not touch -/

/-- `rxbuf <- b`, the whole buffer. -/
def State.setRxbuf (s : State) (b : List Byte) : State := { s with rxbuf := b }

theorem lastError_setRxbuf (s : State) (b : List Byte) : (s.setRxbuf b).lastError = s.lastError := rfl

theorem State.setRxbuf_rxbuf (s : State) (b : List Byte) : (s.setRxbuf b).rxbuf = b := rfl

theorem play_setInTransmission (s : State) (x : Bool) (ls : List Letter) :
    (s.setInTransmission x).play ls = (s.play ls).setInTransmission x := by
  induction ls generalizing s with
  | nil => rfl
  | cons l ls ih =>
    rw [play_cons, play_cons, ← ih]
    congr 1
    cases l <;> rfl

theorem play_setLastError (s : State) (e : Err) (ls : List Letter) :
    (s.setLastError e).play ls = (s.play ls).setLastError e := by
  induction ls generalizing s with
  | nil => rfl
  | cons l ls ih =>
    rw [play_cons, play_cons, ← ih]
    congr 1
    cases l <;> rfl

theorem play_setRxbuf (s : State) (b : List Byte) (ls : List Letter) :
    (s.setRxbuf b).play ls = (s.play ls).setRxbuf b := by
  induction ls generalizing s with
  | nil => rfl
  | cons l ls ih =>
    rw [play_cons, play_cons, ← ih]
    congr 1
    cases l <;> rfl

theorem play_setRxValid (s : State) (v : BitVec 8) (ls : List Letter) :
    (s.setRxValid v).play ls = (s.play ls).setRxValid v := by
  induction ls generalizing s with
  | nil => rfl
  | cons l ls ih =>
    rw [play_cons, play_cons, ← ih]
    congr 1
    cases l <;> rfl

theorem play_setRxCursor (s : State) (c : BitVec 8) (ls : List Letter) :
    (s.setRxCursor c).play ls = (s.play ls).setRxCursor c := by
  induction ls generalizing s with
  | nil => rfl
  | cons l ls ih =>
    rw [play_cons, play_cons, ← ih]
    congr 1
    cases l <;> rfl

theorem play_setOffered (s : State) (o : List HostInput) (ls : List Letter) :
    ({ s with offered := o } : State).play ls = { s.play ls with offered := o } := by
  induction ls generalizing s with
  | nil => rfl
  | cons l ls ih =>
    rw [play_cons, play_cons, ← ih]
    congr 1
    cases l <;> rfl

/-! ### Drivability and the next answers through the updates of the controller -/

@[simp] theorem answer_setLastError (s : State) (e : Err) : (s.setLastError e).answer = s.answer := rfl

@[simp] theorem answer_setInTransmission (s : State) (x : Bool) : (s.setInTransmission x).answer = s.answer := rfl

@[simp] theorem answer_setRxbuf (s : State) (b : List Byte) : (s.setRxbuf b).answer = s.answer := rfl

@[simp] theorem drivable_setLastError (s : State) (e : Err) : (s.setLastError e).drivable ↔ s.drivable := Iff.rfl

@[simp] theorem drivable_setInTransmission (s : State) (x : Bool) : (s.setInTransmission x).drivable ↔ s.drivable :=
  Iff.rfl

@[simp] theorem drivable_setRxbuf (s : State) (b : List Byte) : (s.setRxbuf b).drivable ↔ s.drivable := Iff.rfl

/-- The answers seen after a compact trace that took `n` of them. -/
theorem play_answers_from (s : State) {ls : List Letter} {n : Nat} (h : askCount ls = n) :
    (s.play ls).answer = fun k => s.answer (n + k) := by
  funext k
  rw [play_answer, h]

theorem setLastError_twice (s : State) (e e' : Err) : (s.setLastError e).setLastError e' = s.setLastError e' := rfl

theorem setInTransmission_setLastError (s : State) (x : Bool) (e : Err) :
    (s.setLastError e).setInTransmission x = (s.setInTransmission x).setLastError e := rfl

theorem setInTransmission_twice (s : State) (x y : Bool) :
    (s.setInTransmission x).setInTransmission y = s.setInTransmission y := rfl

theorem setRxbuf_twice (s : State) (b b' : List Byte) : (s.setRxbuf b).setRxbuf b' = s.setRxbuf b' := rfl

/-! ### BEGIN_TRANSMISSION -/

theorem askCount_open (x : Bool) (b : Byte) (ack : Level) : askCount (openLetters x b ack) = 1 := by
  cases x
  · exact askCount_start b ack
  · exact askCount_repStart b ack

theorem openPhase_run (b : Byte) {s : State} (h : s.drivable) :
    openPhase b s = .ok (acknowledged (s.answer 0), s.play (openLetters s.inTransmission b (s.answer 0))) := by
  unfold openPhase
  rw [run_bind (run_get _)]
  cases hi : s.inTransmission
  · exact start_run b h
  · exact repStart_run b h

/-- `last_error` after an addressing phase: `NONE` or `NACK_ON_ADDRESS` (R130). -/
def addressError (ack : Level) : Err := if acknowledged ack then .noError else .nackOnAddress

theorem beginTransmission_run (a : BitVec 7) {s : State} (h : s.drivable) :
    beginTransmission a s = .ok ((), ((s.play (openLetters s.inTransmission (addrByte a rwWrite) (s.answer 0)
      )).setInTransmission true).setLastError (addressError (s.answer 0))) := by
  unfold beginTransmission
  rw [run_bind (openPhase_run _ h), run_bind (run_modify _ _), run_modify]
  rfl

/-! ### WRITE and WRITE_BYTES -/

/-- `last_error` after one write (R131). -/
def writeError (e : Err) (ack : Level) : Err := if acknowledged ack then e else firstError e .nackOnData

theorem ctrlWrite_run (b : Byte) {s : State} (h : s.drivable) :
    ctrlWrite b s = .ok (if acknowledged (s.answer 0) then 1 else 0,
      (s.play (writeLetters b (s.answer 0))).setLastError (writeError s.lastError (s.answer 0))) := by
  unfold ctrlWrite recordError
  rw [run_bind (writeByte_run b h), run_bind (run_modify _ _), run_pure, play_lastError]
  rfl

theorem ackCount_le (n : Nat) (f : Nat → Level) : ackCount n f ≤ n := by
  have := List.countP_le_length (p := fun k => f k == .low) (l := List.range n)
  simpa [ackCount] using this

theorem ackCount_succ (n : Nat) (f : Nat → Level) :
    ackCount (n + 1) f = (if f 0 = .low then 1 else 0) + ackCount n (fun k => f (k + 1)) := by
  simp only [ackCount, List.range_succ_eq_map, List.countP_cons, List.countP_map]
  rw [Nat.add_comm]
  congr 1
  by_cases h : f 0 = .low <;> simp [h]

/-- One more write before `n` others: the closed form of `last_error` composes (R168). -/
theorem errorAfterWrites_succ (e : Err) (n : Nat) (f : Nat → Level) :
    errorAfterWrites (writeError e (f 0)) n (fun k => f (k + 1)) = errorAfterWrites e (n + 1) f := by
  have hle := ackCount_le n (fun k => f (k + 1))
  unfold errorAfterWrites
  rw [ackCount_succ]
  cases hf : f 0
  · have : 1 + ackCount n (fun k => f (k + 1)) < n + 1 ↔ ackCount n (fun k => f (k + 1)) < n := by omega
    simp [writeError, acknowledged, this]
  · cases e <;> simp [writeError, acknowledged, firstError, Nat.lt_succ_of_le hle]

theorem askCount_writes (bs : List Byte) (f : Nat → Level) : askCount (writesLetters bs f) = bs.length := by
  induction bs generalizing f with
  | nil => rfl
  | cons b bs ih => rw [writesLetters, askCount_append, askCount_write, ih, List.length_cons, Nat.add_comm]

theorem writeAll_run (bs : List Byte) (n : BitVec 8) {s : State} (h : s.drivable) :
    writeAll bs n s = .ok (n + BitVec.ofNat 8 (ackCount bs.length s.answer),
      (s.play (writesLetters bs s.answer)).setLastError (errorAfterWrites s.lastError bs.length s.answer)) := by
  induction bs generalizing n s with
  | nil =>
    have h₀ : n + BitVec.ofNat 8 (ackCount ([] : List Byte).length s.answer) = n := BitVec.add_zero n
    have h₁ : errorAfterWrites s.lastError ([] : List Byte).length s.answer = s.lastError := if_neg (by simp)
    rw [writeAll, run_pure, h₀, h₁]
    rfl
  | cons b bs ih =>
    have hd := play_drivable (writeLetters b (s.answer 0)) h
    have hk := play_answers_from s (askCount_write b (s.answer 0))
    have h₁ : (if acknowledged (s.answer 0) then (1 : BitVec 8) else 0) = BitVec.ofNat 8 (if s.answer 0 = .low then 1 else 0) := by
      cases s.answer 0 <;> rfl
    simp only [Nat.add_comm 1] at hk
    rw [writeAll, run_bind (ctrlWrite_run b h), ih _ ((drivable_setLastError _ _).mpr hd), answer_setLastError, hk,
      State.setLastError_lastError, play_setLastError, ← play_append, h₁, BitVec.add_assoc, ← BitVec.ofNat_add,
      ← ackCount_succ, errorAfterWrites_succ, writesLetters, List.length_cons, setLastError_twice]

theorem writeBytes_run (count : BitVec 8) (payload : List Byte) {s : State} (h : s.drivable)
    (hw : payload.length = count.toNat) :
    writeBytes count payload s = .ok (BitVec.ofNat 8 (ackCount payload.length s.answer),
      (s.play (writesLetters payload s.answer)).setLastError
        (errorAfterWrites s.lastError payload.length s.answer)) := by
  unfold writeBytes
  rw [List.take_of_length_le (by omega), writeAll_run payload 0 h]
  congr 2
  exact BitVec.zero_add _

/-! ### END_TRANSMISSION -/

theorem endTransmission_run (sendStop : Bool) {s : State} (h : s.drivable) :
    endTransmission sendStop s = .ok (s.lastError,
      ((s.play (if sendStop then stopLetters else [])).setInTransmission
        (if sendStop then false else s.inTransmission)).setLastError .noError) := by
  unfold endTransmission
  rw [run_bind (run_get _)]
  cases sendStop
  · rfl
  · simp only [if_true]
    rw [run_bind (stop_run h), run_bind (run_modify _ _), run_bind (run_modify _ _), run_pure]

/-! ### REQUEST_FROM -/

theorem internalAddressBytes_succ (i : BitVec 32) (k : Nat) :
    internalAddressBytes i (k + 1) = internalByte i k :: internalAddressBytes i k := by
  simp [internalAddressBytes, List.range_succ]

@[simp] theorem internalAddressBytes_length (i : BitVec 32) (k : Nat) : (internalAddressBytes i k).length = k := by
  simp [internalAddressBytes]

theorem minByte_toNat (a b : BitVec 8) : (minByte a b).toNat = min a.toNat b.toNat := by
  unfold minByte
  by_cases h : a.toNat < b.toNat
  · rw [if_pos (by simpa [BitVec.ult] using h)]
    omega
  · rw [if_neg (by simpa [BitVec.ult] using h)]
    omega

/-- `z = min(Z, 3)` (R87). -/
theorem clampSize_toNat (z : BitVec 8) : (clampSize z).toNat = min z.toNat 3 := minByte_toNat z 3

/-- `q = min(Q, BUFFER_CAPACITY)` (R87). -/
theorem clampQuantity_toNat (c : Config) (q : BitVec 8) :
    (clampQuantity c q).toNat = min q.toNat c.bufferCapacity.toNat := minByte_toNat q _

theorem sendInternalAddress_run (i : BitVec 32) (k : Nat) {s : State} (h : s.drivable) :
    sendInternalAddress i k s = .ok ((),
      (s.play (writesLetters (internalAddressBytes i k) s.answer)).setLastError
        (errorAfterWrites s.lastError k s.answer)) := by
  induction k generalizing s with
  | zero =>
    have h₁ : errorAfterWrites s.lastError 0 s.answer = s.lastError := if_neg (by simp)
    rw [sendInternalAddress, run_pure, h₁]
    rfl
  | succ k ih =>
    have hd := play_drivable (writeLetters (internalByte i k) (s.answer 0)) h
    have hk := play_answers_from s (askCount_write (internalByte i k) (s.answer 0))
    simp only [Nat.add_comm 1] at hk
    rw [sendInternalAddress, run_bind (ctrlWrite_run _ h), ih ((drivable_setLastError _ _).mpr hd),
      answer_setLastError, hk, State.setLastError_lastError, play_setLastError, ← play_append, errorAfterWrites_succ,
      internalAddressBytes_succ, writesLetters, setLastError_twice]

/-- Step 2 with `Z > 0`: the flag is set, and whatever was not acknowledged is forgotten (R134 a, c). -/
theorem sendRegisterPointer_run (a : BitVec 7) (i : BitVec 32) (z : BitVec 8) (hz : z ≠ 0) {s : State}
    (h : s.drivable) :
    sendRegisterPointer a i z s = .ok ((),
      ((s.play (pointerLetters s.inTransmission a i z s.answer)).setInTransmission true).setLastError .noError) := by
  have hd : ∀ ls e, (((s.play ls).setInTransmission true).setLastError e).drivable := fun ls e => by
    simpa using play_drivable ls h
  have hk := play_answers_from s (askCount_open s.inTransmission (addrByte a rwWrite) (s.answer 0))
  unfold sendRegisterPointer
  rw [run_bind (beginTransmission_run a h), run_bind (sendInternalAddress_run i _ (hd _ _)), answer_setLastError,
    answer_setInTransmission, hk]
  simp only [play_setLastError, play_setInTransmission, ← play_append, setLastError_twice]
  rw [run_bind (endTransmission_run false (hd _ _)), run_pure]
  simp only [pointerLetters, if_neg hz, clampSize_toNat]
  rfl

/-- The buffer after `n` Reads stored from index `i` on. -/
def storedBytes : Nat → Nat → (Nat → Level) → List Byte → List Byte
  | _, 0, _, buf => buf
  | i, n + 1, f, buf => storedBytes (i + 1) n (fun k => f (k + 8)) (buf.set i (sampledByte f))

@[simp] theorem storedBytes_length (i n : Nat) (f : Nat → Level) (buf : List Byte) :
    (storedBytes i n f buf).length = buf.length := by
  induction n generalizing i f buf with
  | zero => rfl
  | succ n ih => rw [storedBytes, ih, List.length_set]

/-- What `storedBytes` leaves at index `j`: the `j - i`-th Read inside the range, the old byte outside it (R24). -/
theorem storedBytes_getElem? (i n : Nat) (f : Nat → Level) (buf : List Byte) (j : Nat) :
    (storedBytes i n f buf)[j]? =
      if i ≤ j ∧ j < i + n ∧ j < buf.length then some (sampledByte (fun k => f (8 * (j - i) + k))) else buf[j]? := by
  induction n generalizing i f buf with
  | zero =>
    rw [storedBytes, if_neg (by omega)]
  | succ n ih =>
    rw [storedBytes, ih, List.length_set]
    by_cases hj : j = i
    · subst hj
      by_cases hl : j < buf.length
      · rw [if_neg (by omega), if_pos ⟨Nat.le_refl _, by omega, hl⟩]
        simp [hl]
      · rw [if_neg (by omega), if_neg (by omega)]
        simp [hl]
    · by_cases hc : i + 1 ≤ j ∧ j < i + 1 + n ∧ j < buf.length
      · rw [if_pos hc, if_pos ⟨by omega, by omega, hc.2.2⟩]
        congr 2
        funext k
        congr 1
        omega
      · rw [if_neg hc, if_neg (by omega), List.getElem?_set_ne (by omega)]

theorem askCount_reads (n : Nat) (f : Nat → Level) : askCount (readsLetters n f) = 8 * n := by
  induction n generalizing f with
  | zero => rfl
  | succ n ih =>
    rw [readsLetters, askCount_append, askCount_read, ih]
    omega

theorem storeRx_eq (s : State) (i : Nat) (v : Byte) : s.storeRx i v = s.setRxbuf (s.rxbuf.set i v) := rfl

theorem receiveAll_run (i n : Nat) {s : State} (h : s.drivable) :
    receiveAll i n s = .ok ((), (s.play (readsLetters n s.answer)).setRxbuf (storedBytes i n s.answer s.rxbuf)) := by
  induction n generalizing i s with
  | zero => rfl
  | succ n ih =>
    have hd := play_drivable (readLetters s.answer (n == 0)) h
    have hk := play_answers_from s (askCount_read s.answer (n == 0))
    simp only [Nat.add_comm 8] at hk
    rw [receiveAll, run_bind (readByte_run _ h), run_bind (run_modify _ _), storeRx_eq,
      ih _ ((drivable_setRxbuf _ _).mpr hd), answer_setRxbuf, hk, play_setRxbuf, ← play_append, setRxbuf_twice,
      State.setRxbuf_rxbuf, play_rxbuf, storedBytes, readsLetters]

theorem askCount_pointer (x : Bool) (a : BitVec 7) (i : BitVec 32) (z : BitVec 8) (f : Nat → Level) :
    askCount (pointerLetters x a i z f) = readAckIndex z := by
  unfold pointerLetters readAckIndex
  split
  · rfl
  · rw [askCount_append, askCount_open, askCount_writes, internalAddressBytes_length]

/-- The state after steps 1 and 2, whatever `Z` is. -/
theorem requestPointer_run (a : BitVec 7) (i : BitVec 32) (z : BitVec 8) {s : State} (h : s.drivable)
    (he : s.lastError = .noError) :
    requestPointer a i z s = .ok ((),
      ((s.play (pointerLetters s.inTransmission a i z s.answer)).setInTransmission
        (s.inTransmission || z != 0)).setLastError .noError) := by
  unfold requestPointer
  by_cases hz : z = 0
  · have hp : pointerLetters s.inTransmission a i z s.answer = [] := if_pos hz
    rw [hp, hz]
    simp only [bne_self_eq_false, Bool.false_eq_true, if_false, run_pure, play_nil, Bool.or_false]
    cases s
    cases he
    rfl
  · have hb : (z != 0) = true := by simpa using hz
    rw [hb, if_pos rfl, sendRegisterPointer_run a i z hz h, Bool.or_true]

/-- Step 7 (R134). -/
theorem requestStop_run (sendStop : Bool) {s : State} (h : s.drivable) :
    requestStop sendStop s = .ok ((), (s.play (if sendStop then stopLetters else [])).setInTransmission
      (if sendStop then false else s.inTransmission)) := by
  cases sendStop
  · rfl
  · have hd : (s.setInTransmission false).drivable := h
    unfold requestStop
    rw [if_pos rfl, run_bind (run_modify _ _), stop_run hd, play_setInTransmission]
    rfl

/-- Step 4's record: at that point nothing is recorded (R134 a). -/
theorem recordError_run (ok : Bool) (e : Err) (s : State) :
    recordError ok e s = .ok (⟨⟩, s.setLastError (if ok then s.lastError else firstError s.lastError e)) := rfl

/-- `request_from` (R134), all eight steps. -/
theorem requestFrom_run (a : BitVec 7) (quantity : BitVec 8) (i : BitVec 32) (z : BitVec 8) (sendStop : Bool) {s : State}
    (h : s.drivable) :
    requestFrom a quantity i z sendStop s = .ok
      (if s.answer (readAckIndex z) = .low then clampQuantity s.cfg quantity else 0,
       (((((s.play (requestLetters s.inTransmission a (clampQuantity s.cfg quantity).toNat i z sendStop s.answer)
          ).setInTransmission (if sendStop then false else s.inTransmission || z != 0)
          ).setLastError (addressError (s.answer (readAckIndex z)))
          ).setRxbuf (storedBytes 0 (clampQuantity s.cfg quantity).toNat
            (fun k => s.answer (readAckIndex z + 1 + k)) s.rxbuf)
          ).setRxValid (if s.answer (readAckIndex z) = .low then clampQuantity s.cfg quantity else 0)
          ).setRxCursor 0) := by
  have h₀ : (s.setLastError .noError).drivable := h
  have hp := requestPointer_run a i z h₀ rfl
  simp only [answer_setLastError, play_setLastError, State.setLastError_inTransmission, setInTransmission_setLastError,
    setLastError_twice] at hp
  have hd : ∀ x e ls, (((s.play ls).setInTransmission x).setLastError e).drivable := fun x e ls => by
    simpa using play_drivable ls h
  have hk := play_answers_from s (askCount_pointer s.inTransmission a i z s.answer)
  unfold requestFrom
  rw [run_bind (run_modify _ _), run_bind hp, run_bind (run_get _), run_bind (openPhase_run _ (hd _ _ _)),
    run_bind (recordError_run _ _ _)]
  simp only [answer_setLastError, answer_setInTransmission, hk, play_setLastError, play_setInTransmission, ← play_append,
    State.setLastError_inTransmission, State.setInTransmission_inTransmission, State.setLastError_lastError,
    State.setLastError_cfg, State.setInTransmission_cfg, play_cfg, setLastError_twice, Nat.add_zero]
  rw [run_bind (receiveAll_run _ _ (hd _ _ _)), run_bind (run_modify _ _), run_bind (run_modify _ _)]
  have hc : askCount (pointerLetters s.inTransmission a i z s.answer ++
      openLetters (s.inTransmission || z != 0) (addrByte a rwRead) (s.answer (readAckIndex z))) = readAckIndex z + 1 := by
    rw [askCount_append, askCount_pointer, askCount_open]
  have he : (if acknowledged (s.answer (readAckIndex z)) then Err.noError else firstError .noError .nackOnAddress) =
      addressError (s.answer (readAckIndex z)) := rfl
  have hv : ∀ q : BitVec 8, (if addressError (s.answer (readAckIndex z)) = .noError then q else 0) =
      if s.answer (readAckIndex z) = .low then q else 0 := fun q => by cases s.answer (readAckIndex z) <;> rfl
  simp only [answer_setLastError, answer_setInTransmission, play_answers_from s hc, play_setLastError,
    play_setInTransmission, ← play_append, he, lastError_setRxbuf, State.setLastError_lastError, hv,
    State.setLastError_rxbuf, State.setInTransmission_rxbuf, play_rxbuf]
  have hd' : ∀ ls x e b v c, ((((((s.play ls).setInTransmission x).setLastError e).setRxbuf b).setRxValid v).setRxCursor
      c).drivable := fun ls x e b v c => play_drivable ls h
  rw [run_bind (requestStop_run _ (hd' _ _ _ _ _ _)), run_bind (run_get _), run_pure]
  simp only [play_setRxCursor, play_setRxValid, play_setRxbuf, play_setLastError, play_setInTransmission, ← play_append,
    requestLetters]
  generalize s.play _ = u
  cases u
  rfl

end Sys2Proof.Machine
end

