-- ==== Sys2Proof/Laws/Exec.lean ====
section
/-! SUPPORT. What any command can do, from any state at all: if it answers, the state after it is the state before played
through some compact trace, with the Transaction State and the Receive Buffer written and one response delivered. If it
faults, a latch was high. -/

namespace Sys2Proof.Machine

/-! ### What a procedure can do -/

/-- `t` is `s` played through some compact trace, but for the Transaction State and the Receive Buffer. -/
def Played (s t : State) : Prop :=
  ∃ ls, t = { s.play ls with
    inTransmission := t.inTransmission, lastError := t.lastError
    rxbuf := t.rxbuf, rxCursor := t.rxCursor, rxValid := t.rxValid }

/-- A pin's latch that is high and not written before the pin becomes an output (R33). -/
def HighLatch (s : State) (p : Pin) : Prop := s.cfg.pullupAssist = false ∧ (s.pad p).latch = .high

/-- What a procedure may do: play a compact trace, or fault for a latch that was high from the start. -/
def Plays {α : Type} (x : Run α) : Prop :=
  ∀ s, (∀ a t, x s = .ok (a, t) → Played s t) ∧ (∀ f, x s = .error f → ∃ p, f = .drivenHigh p ∧ HighLatch s p)

theorem played_refl (s : State) : Played s s := ⟨[], rfl⟩

theorem play_other (s : State) (x : Bool) (e : Err) (b : List Byte) (c v : BitVec 8) (ls : List Letter) :
    ({ s with inTransmission := x, lastError := e, rxbuf := b, rxCursor := c, rxValid := v } : State).play ls =
      { s.play ls with inTransmission := x, lastError := e, rxbuf := b, rxCursor := c, rxValid := v } := by
  induction ls generalizing s with
  | nil => rfl
  | cons l ls ih =>
    rw [play_cons, play_cons, ← ih]
    congr 1
    cases l <;> rfl

theorem played_trans {s t u : State} (h₁ : Played s t) (h₂ : Played t u) : Played s u := by
  obtain ⟨l₁, h₁⟩ := h₁
  obtain ⟨l₂, h₂⟩ := h₂
  refine ⟨l₁ ++ l₂, ?_⟩
  rw [h₁, play_other] at h₂
  rw [play_append]
  exact h₂

/-- Without pull-up assist a compact trace makes no latch high (R31, R32). -/
theorem played_highLatch {s t : State} {p : Pin} (h : Played s t) (ht : HighLatch t p) : HighLatch s p := by
  obtain ⟨ls, h⟩ := h
  have hc : t.cfg = s.cfg := by rw [h, play_cfg]
  refine ⟨hc ▸ ht.1, ?_⟩
  have hs : s.cfg.pullupAssist = false := hc ▸ ht.1
  have hp : (t.pad p) = (s.play ls).pad p := by rw [h]; cases p <;> rfl
  have hl : ((s.play ls).pad p).latch = .high := hp ▸ ht.2
  clear h hc ht hp
  induction ls generalizing s with
  | nil => exact hl
  | cons l ls ih =>
    rw [play_cons] at hl
    have h₁ := ih (s := l.play s) (by cases l <;> exact hs) hl
    cases l <;> cases p <;>
      simp_all [Letter.play, State.released, State.drivenLow, State.asked, State.emit, State.countRead, State.setPad,
        State.pad]

/-! ### Closure: the procedures are built from the shim and the updates of the controller -/

theorem plays_pure {α : Type} (a : α) : Plays (pure a : Run α) := fun s =>
  ⟨fun _ _ h => by cases h; exact played_refl s, fun _ h => by cases h⟩

theorem plays_get : Plays (get : Run State) := fun s =>
  ⟨fun _ _ h => by cases h; exact played_refl s, fun _ h => by cases h⟩

theorem plays_bind {α β : Type} {x : Run α} {f : α → Run β} (hx : Plays x) (hf : ∀ a, Plays (f a)) :
    Plays (x >>= f) := fun s => by
  cases hs : x s with
  | error e =>
    rw [run_bind_error hs]
    exact ⟨fun _ _ h => (by cases h), fun g h => by cases h; exact (hx s).2 _ hs⟩
  | ok r =>
    obtain ⟨a, t⟩ := r
    have h₁ := (hx s).1 a t hs
    rw [run_bind hs]
    refine ⟨fun b u h => played_trans h₁ ((hf a t).1 b u h), fun g h => ?_⟩
    obtain ⟨p, hp, hl⟩ := (hf a t).2 g h
    exact ⟨p, hp, played_highLatch h₁ hl⟩

theorem plays_ite {α : Type} {c : Prop} [Decidable c] {x y : Run α} (hx : Plays x) (hy : Plays y) :
    Plays (if c then x else y) := by
  split
  · exact hx
  · exact hy

/-- An update of the Transaction State or the Receive Buffer. -/
theorem plays_modify {f : State → State} (h : ∀ s, f s = { s with
    inTransmission := (f s).inTransmission, lastError := (f s).lastError
    rxbuf := (f s).rxbuf, rxCursor := (f s).rxCursor, rxValid := (f s).rxValid }) :
    Plays (modify f : Run PUnit) := fun s =>
  ⟨fun _ _ hm => by cases hm; exact ⟨[], h s⟩, fun _ hm => by cases hm⟩

theorem plays_release (p : Pin) : Plays (release p) := fun s => by
  rw [release_run]
  refine ⟨fun _ _ h => ?_, fun _ h => by cases h⟩
  cases h
  cases p
  · exact ⟨[.relSda], rfl⟩
  · exact ⟨[.relScl], rfl⟩

theorem plays_driveLow (p : Pin) : Plays (driveLow p) := fun s => by
  by_cases h : s.cfg.pullupAssist = true ∨ (s.pad p).latch = .low
  · rw [driveLow_run h]
    refine ⟨fun _ _ h => ?_, fun _ h => by cases h⟩
    cases h
    cases p
    · exact ⟨[.lowSda], rfl⟩
    · exact ⟨[.lowScl], rfl⟩
  · have hp : s.cfg.pullupAssist = false := by
      cases hc : s.cfg.pullupAssist
      · rfl
      · exact absurd (.inl hc) h
    have hl : (s.pad p).latch = .high := by
      cases hc : (s.pad p).latch
      · exact absurd (.inr hc) h
      · rfl
    rw [driveLow_fault hp hl]
    exact ⟨fun _ _ h => (by cases h), fun f h => by cases h; exact ⟨p, rfl, hp, hl⟩⟩

theorem plays_readPin (p : Pin) : Plays (readPin p) := fun s => by
  rw [readPin_run]
  refine ⟨fun _ _ h => ?_, fun _ h => by cases h⟩
  cases h
  cases p
  · exact ⟨[.askSda (s.answer 0)], rfl⟩
  · exact ⟨[.askScl (s.answer 0)], rfl⟩

theorem plays_waitFull : Plays waitFull := fun s => by
  rw [waitFull_run]
  exact ⟨fun _ _ h => by cases h; exact ⟨[.full], rfl⟩, fun _ h => by cases h⟩

theorem plays_waitHalf : Plays waitHalf := fun s => by
  rw [waitHalf_run]
  exact ⟨fun _ _ h => by cases h; exact ⟨[.half], rfl⟩, fun _ h => by cases h⟩

/-! ### The procedures -/

theorem plays_setSda (bit : Bool) : Plays (setSda bit) := plays_ite (plays_release _) (plays_driveLow _)

theorem plays_sendBits (b : Byte) (n : Nat) : Plays (sendBits b n) := by
  induction n with
  | zero => exact plays_pure _
  | succ n ih =>
    exact plays_bind (plays_setSda _) fun _ => plays_bind (plays_release _) fun _ => plays_bind plays_waitFull fun _ =>
      plays_bind (plays_driveLow _) fun _ => ih

theorem plays_writeByte (b : Byte) : Plays (writeByte b) :=
  plays_bind (plays_sendBits b 8) fun _ => plays_bind (plays_release _) fun _ => plays_bind (plays_release _) fun _ =>
    plays_bind plays_waitHalf fun _ => plays_bind (plays_readPin _) fun _ => plays_bind (plays_driveLow _) fun _ =>
    plays_bind plays_waitHalf fun _ => plays_bind (plays_driveLow _) fun _ => plays_pure _

theorem plays_receiveBits (n : Nat) (r : Byte) : Plays (receiveBits n r) := by
  induction n generalizing r with
  | zero => exact plays_pure _
  | succ n ih =>
    exact plays_bind plays_waitFull fun _ => plays_bind (plays_release _) fun _ => plays_bind (plays_readPin _) fun _ =>
      plays_bind (plays_driveLow _) fun _ => ih _

theorem plays_readByte (last : Bool) : Plays (readByte last) := by
  have tail : ∀ r, Plays (do
      release .scl
      waitHalf
      driveLow .scl
      waitHalf
      driveLow .sda
      return r : Run Byte) := fun r =>
    plays_bind (plays_release _) fun _ => plays_bind plays_waitHalf fun _ => plays_bind (plays_driveLow _) fun _ =>
      plays_bind plays_waitHalf fun _ => plays_bind (plays_driveLow _) fun _ => plays_pure _
  refine plays_bind (plays_release _) fun _ => plays_bind (plays_receiveBits _ _) fun r => ?_
  exact plays_ite (plays_bind (plays_release _) fun _ => tail r) (plays_bind (plays_driveLow _) fun _ => tail r)

theorem plays_start (b : Byte) : Plays (start b) :=
  plays_bind (plays_driveLow _) fun _ => plays_bind plays_waitFull fun _ => plays_bind (plays_driveLow _) fun _ =>
    plays_writeByte b

theorem plays_repStart (b : Byte) : Plays (repStart b) :=
  plays_bind (plays_release _) fun _ => plays_bind (plays_release _) fun _ => plays_bind plays_waitFull fun _ =>
    plays_start b

theorem plays_stop : Plays stop :=
  plays_bind (plays_driveLow _) fun _ => plays_bind plays_waitFull fun _ => plays_bind (plays_release _) fun _ =>
    plays_bind plays_waitFull fun _ => plays_bind (plays_release _) fun _ => plays_waitFull

theorem plays_startAttempts (b : Byte) (n : Nat) : Plays (startAttempts b n) := by
  induction n with
  | zero => exact plays_pure _
  | succ n ih =>
    exact plays_bind (plays_start b) fun _ => plays_ite (plays_pure _) (plays_bind plays_stop fun _ => ih)

theorem plays_startWait (b : Byte) : Plays (startWait b) := plays_bind plays_get fun _ => plays_startAttempts b _

theorem plays_initBus : Plays initBus :=
  plays_bind (plays_driveLow _) fun _ => plays_bind (plays_driveLow _) fun _ => plays_bind (plays_release _) fun _ =>
    plays_bind (plays_release _) fun _ => plays_bind (plays_readPin _) fun _ => plays_bind (plays_readPin _) fun _ =>
    plays_pure _

theorem plays_openPhase (b : Byte) : Plays (openPhase b) :=
  plays_bind plays_get fun _ => plays_ite (plays_repStart b) (plays_start b)

theorem plays_beginTransmission (a : BitVec 7) : Plays (beginTransmission a) :=
  plays_bind (plays_openPhase _) fun _ => plays_bind (plays_modify fun _ => rfl) fun _ => plays_modify fun _ => rfl

theorem plays_recordError (ok : Bool) (e : Err) : Plays (recordError ok e) := plays_modify fun _ => rfl

theorem plays_ctrlWrite (b : Byte) : Plays (ctrlWrite b) :=
  plays_bind (plays_writeByte b) fun _ => plays_bind (plays_recordError _ _) fun _ => plays_pure _

theorem plays_writeAll (bs : List Byte) (n : BitVec 8) : Plays (writeAll bs n) := by
  induction bs generalizing n with
  | nil => exact plays_pure _
  | cons b bs ih => exact plays_bind (plays_ctrlWrite b) fun _ => ih _

theorem plays_endTransmission (sendStop : Bool) : Plays (endTransmission sendStop) := by
  refine plays_bind plays_get fun s => plays_ite ?_ ?_
  · exact plays_bind plays_stop fun _ => plays_bind (plays_modify fun _ => rfl) fun _ =>
      plays_bind (plays_modify fun _ => rfl) fun _ => plays_pure _
  · exact plays_bind (plays_modify fun _ => rfl) fun _ => plays_pure _

theorem plays_sendInternalAddress (i : BitVec 32) (k : Nat) : Plays (sendInternalAddress i k) := by
  induction k with
  | zero => exact plays_pure _
  | succ k ih => exact plays_bind (plays_ctrlWrite _) fun _ => ih

theorem plays_requestPointer (a : BitVec 7) (i : BitVec 32) (z : BitVec 8) : Plays (requestPointer a i z) :=
  plays_ite (plays_bind (plays_beginTransmission a) fun _ => plays_bind (plays_sendInternalAddress i _) fun _ =>
    plays_bind (plays_endTransmission false) fun _ => plays_pure _) (plays_pure _)

theorem plays_receiveAll (i n : Nat) : Plays (receiveAll i n) := by
  induction n generalizing i with
  | zero => exact plays_pure _
  | succ n ih => exact plays_bind (plays_readByte _) fun _ => plays_bind (plays_modify fun _ => rfl) fun _ => ih _

theorem plays_requestStop (sendStop : Bool) : Plays (requestStop sendStop) :=
  plays_ite (plays_bind (plays_modify fun _ => rfl) fun _ => plays_stop) (plays_pure _)

theorem plays_requestFrom (a : BitVec 7) (q : BitVec 8) (i : BitVec 32) (z : BitVec 8) (sendStop : Bool) :
    Plays (requestFrom a q i z sendStop) :=
  plays_bind (plays_modify fun _ => rfl) fun _ => plays_bind (plays_requestPointer a i z) fun _ =>
    plays_bind plays_get fun _ => plays_bind (plays_openPhase _) fun _ => plays_bind (plays_recordError _ _) fun _ =>
    plays_bind (plays_receiveAll _ _) fun _ => plays_bind (plays_modify fun _ => rfl) fun _ =>
    plays_bind (plays_modify fun _ => rfl) fun _ => plays_bind (plays_requestStop _) fun _ =>
    plays_bind plays_get fun _ => plays_pure _

theorem plays_set {g : State → State} (h : ∀ s, g s = { s with
    inTransmission := (g s).inTransmission, lastError := (g s).lastError
    rxbuf := (g s).rxbuf, rxCursor := (g s).rxCursor, rxValid := (g s).rxValid }) (v : State → Value) :
    Plays (do let s ← get; set (g s); return v s : Run Value) := fun s =>
  ⟨fun _ _ hm => by cases hm; exact ⟨[], h s⟩, fun _ hm => by cases hm⟩

theorem streamRead_run (s : State) : streamRead s =
    if s.rxValid ≤ s.rxCursor then .ok (noData, s)
    else .ok (byteValue s.byteAtCursor, s.setRxCursor (s.rxCursor + 1)) := by
  unfold streamRead
  rw [run_bind (run_get _)]
  split <;> rfl

theorem streamPeek_run (s : State) : streamPeek s =
    if s.rxValid ≤ s.rxCursor then .ok (noData, s) else .ok (byteValue s.byteAtCursor, s) := by
  unfold streamPeek
  rw [run_bind (run_get _)]
  split <;> rfl

theorem plays_streamRead : Plays streamRead := fun s => by
  rw [streamRead_run]
  split
  · exact ⟨fun _ _ h => by cases h; exact played_refl s, fun _ h => by cases h⟩
  · exact ⟨fun _ _ h => by cases h; exact ⟨[], rfl⟩, fun _ h => by cases h⟩

theorem plays_streamPeek : Plays streamPeek := fun s => by
  rw [streamPeek_run]
  split
  · exact ⟨fun _ _ h => by cases h; exact played_refl s, fun _ h => by cases h⟩
  · exact ⟨fun _ _ h => by cases h; exact played_refl s, fun _ h => by cases h⟩

/-! ### Commands -/

/-- The procedure of a command. -/
def body : Instr → Run Value
  | .initializeBus => do let ok ← initBus; return boolValue ok
  | .beginTransmission a => do beginTransmission a; return noValue
  | .write b => do let n ← ctrlWrite b; return byteValue n
  | .writeBytes count payload => do let n ← writeBytes count payload; return byteValue n
  | .endTransmission sendStop => do let e ← endTransmission sendStop; return errValue e
  | .requestFrom a q i z sendStop => do let n ← requestFrom a q i z sendStop; return byteValue n
  | .available => available
  | .read => streamRead
  | .peek => streamPeek
  | .flush => streamFlush
  | .engStart b => do let ok ← start b; return boolValue ok
  | .engRepStart b => do let ok ← repStart b; return boolValue ok
  | .engStartWait b => do let ok ← startWait b; return boolValue ok
  | .engStop => do stop; return noValue
  | .engWrite b => do let ok ← writeByte b; return boolValue ok
  | .engRead last => do let r ← readByte last; return byteValue r
  | .pinRelease p => do release p; return noValue
  | .pinDriveLow p => do driveLow p; return noValue
  | .pinRead p => do let l ← readPin p; return levelValue l

/-- Every command runs its procedure and delivers its value. -/
theorem exec_eq (i : Instr) (s : State) : exec i s = runCommand (body i) s := by
  cases i <;> rfl

theorem plays_body (i : Instr) : Plays (body i) := by
  cases i with
  | initializeBus => exact plays_bind plays_initBus fun _ => plays_pure _
  | beginTransmission a => exact plays_bind (plays_beginTransmission a) fun _ => plays_pure _
  | write b => exact plays_bind (plays_ctrlWrite b) fun _ => plays_pure _
  | writeBytes c bs => exact plays_bind (plays_writeAll _ _) fun _ => plays_pure _
  | endTransmission x => exact plays_bind (plays_endTransmission x) fun _ => plays_pure _
  | requestFrom a q i z x => exact plays_bind (plays_requestFrom a q i z x) fun _ => plays_pure _
  | available => exact plays_bind plays_get fun _ => plays_pure _
  | read => exact plays_streamRead
  | peek => exact plays_streamPeek
  | flush => exact plays_pure _
  | engStart b => exact plays_bind (plays_start b) fun _ => plays_pure _
  | engRepStart b => exact plays_bind (plays_repStart b) fun _ => plays_pure _
  | engStartWait b => exact plays_bind (plays_startWait b) fun _ => plays_pure _
  | engStop => exact plays_bind plays_stop fun _ => plays_pure _
  | engWrite b => exact plays_bind (plays_writeByte b) fun _ => plays_pure _
  | engRead x => exact plays_bind (plays_readByte x) fun _ => plays_pure _
  | pinRelease p => exact plays_bind (plays_release p) fun _ => plays_pure _
  | pinDriveLow p => exact plays_bind (plays_driveLow p) fun _ => plays_pure _
  | pinRead p => exact plays_bind (plays_readPin p) fun _ => plays_pure _

/-- A command whose procedure answers gives a next state: the procedure's, with the response delivered. -/
theorem exec_of_body {i : Instr} {s t : State} {v : Value} (h : body i s = .ok (v, t)) :
    exec i s = .next (t.deliver (responseWord v)) := by
  rw [exec_eq, runCommand, h]

/-- Inversion: whatever a command did, its procedure did and one response was delivered. -/
theorem exec_next {i : Instr} {s t : State} (h : exec i s = .next t) :
    ∃ v u, body i s = .ok (v, u) ∧ t = u.deliver (responseWord v) := by
  rw [exec_eq, runCommand] at h
  split at h
  · cases h
    exact ⟨_, _, by assumption, rfl⟩
  · cases h

/-- A command that answers played some compact trace and delivered one response. -/
theorem exec_played {i : Instr} {s t : State} (h : exec i s = .next t) :
    ∃ v u, Played s u ∧ t = u.deliver (responseWord v) := by
  obtain ⟨v, u, hb, ht⟩ := exec_next h
  exact ⟨v, u, (plays_body i s).1 v u hb, ht⟩

/-- A command that faults met a latch that was high before it began (R165). -/
theorem exec_fault {i : Instr} {s : State} {f : Fault} (h : exec i s = .fault f) :
    ∃ p, f = .drivenHigh p ∧ HighLatch s p := by
  rw [exec_eq, runCommand] at h
  split at h
  · cases h
  · cases h
    exact (plays_body i s).2 _ (by assumption)

theorem exec_not_refused (i : Instr) (s : State) (r : Refusal) : exec i s ≠ .refused r := by
  rw [exec_eq, runCommand]
  split <;> intro h <;> cases h

/-- From a drivable state every command completes. -/
theorem exec_completes (i : Instr) {s : State} (h : s.drivable) : ∃ t, exec i s = .next t := by
  cases hx : exec i s with
  | next t => exact ⟨t, rfl⟩
  | refused r => exact absurd hx (exec_not_refused i s r)
  | fault f =>
    obtain ⟨p, -, hp, hl⟩ := exec_fault hx
    rcases h with h | ⟨h₁, h₂⟩
    · simp [hp] at h
    · cases p <;> simp_all [State.pad]

end Sys2Proof.Machine
end

