-- ==== Sys2Proof/Laws/Commands.lean ====
section
/-! SUPPORT. How a command ends: what a completed command leaves, where each procedure leaves the pins, what is preserved by
everything below the Transfer Controller, and that no compact trace breaks the invariant. -/

namespace Sys2Proof.Machine

/-! ### A completed command -/

/-- A command's procedure is a procedure and the reading of its result as `VALUE`. -/
theorem body_of_run {α : Type} {x : Run α} {v : α → Value} {s t : State} {a : α} (h : x s = .ok (a, t)) :
    (do let r ← x; return v r : Run Value) s = .ok (v a, t) := by
  rw [run_bind h]
  rfl

/-- `t` is what a command leaves whose procedure played `ls` from `s`, left the Transaction State and the Receive Buffer as
in `u`, and answered `v`. -/
structure Completed (s u t : State) (ls : List Letter) (v : Value) : Prop where
  emitted : Emitted s t ls v
  latches : KeptLatches s t
  world : KeptWorld s t
  cfg : t.cfg = (s.play ls).cfg
  sda : t.sda = (s.play ls).sda
  scl : t.scl = (s.play ls).scl
  irq : t.irq = (s.play ls).irq
  latchDraws : t.latchDraws = (s.play ls).latchDraws
  inTransmission : t.inTransmission = u.inTransmission
  lastError : t.lastError = u.lastError
  rxbuf : t.rxbuf = u.rxbuf
  rxCursor : t.rxCursor = u.rxCursor
  rxValid : t.rxValid = u.rxValid

/-- A procedure that plays a compact trace from a drivable state makes its command complete. -/
theorem exec_completed {i : Instr} {s u : State} {v : Value} {ls : List Letter} (hd : s.drivable)
    (hb : body i s = .ok (v, u)) (hu : u = { s.play ls with
      inTransmission := u.inTransmission, lastError := u.lastError
      rxbuf := u.rxbuf, rxCursor := u.rxCursor, rxValid := u.rxValid }) :
    ∃ t, exec i s = .next t ∧ Completed s u t ls v := by
  refine ⟨_, exec_of_body hb, ?_⟩
  generalize hw : u.deliver (responseWord v) = t
  rw [hu] at hw
  subst hw
  exact ⟨⟨by simp [State.deliver], by simp [State.deliver], by simp [State.deliver], rfl⟩, play_keptLatches ls hd,
    ⟨by simp [State.deliver], by simp [State.deliver], by simp [State.deliver], by simp [State.deliver],
      fun h => play_noWindow ls h⟩, rfl, rfl, rfl, rfl, rfl, rfl, rfl, rfl, rfl, rfl⟩

/-- An engine command: nothing but the pins is touched (R117). -/
theorem exec_engine {i : Instr} {s : State} {v : Value} {ls : List Letter} (hd : s.drivable)
    (hb : body i s = .ok (v, s.play ls)) :
    ∃ t, exec i s = .next t ∧ Emitted s t ls v ∧ PinsOnly s t ∧ t.cfg = (s.play ls).cfg ∧ t.sda = (s.play ls).sda ∧
      t.scl = (s.play ls).scl := by
  obtain ⟨t, ht, c⟩ := exec_completed hd hb rfl
  exact ⟨t, ht, c.emitted, ⟨c.latches, ⟨by simpa using c.inTransmission, by simpa using c.lastError⟩,
    ⟨by simpa using c.rxbuf, by simpa using c.rxCursor, by simpa using c.rxValid⟩, c.world⟩, c.cfg, c.sda, c.scl⟩

theorem held_of_pads {s t : State} (h₁ : t.sda = s.sda) (h₂ : t.scl = s.scl) (h : s.held) : t.held :=
  ⟨h₁.trans h.1, h₂.trans h.2⟩

theorem bothReleased_of_pads {s t : State} (h₀ : t.cfg = s.cfg) (h₁ : t.sda = s.sda) (h₂ : t.scl = s.scl)
    (h : s.bothReleased) : t.bothReleased := by
  rw [State.bothReleased, h₀, h₁, h₂]
  exact h

/-! ### Where the procedures leave the pins (R118) -/

theorem play_write_held (s : State) (b : Byte) (ack : Level) : (s.play (writeLetters b ack)).held := by
  have := play_held s ([7, 6, 5, 4, 3, 2, 1, 0].flatMap (fun i => bitLetters (b.getLsbD i))
    ++ [.relSda, .relScl, .half, .askSda ack])
  simpa [writeLetters] using this

theorem play_start_held (s : State) (b : Byte) (ack : Level) : (s.play (startLetters b ack)).held := by
  rw [startLetters, play_append]
  exact play_write_held _ b ack

theorem play_repStart_held (s : State) (b : Byte) (ack : Level) : (s.play (repStartLetters b ack)).held := by
  rw [repStartLetters, play_append]
  exact play_start_held _ b ack

theorem play_open_held (s : State) (x : Bool) (b : Byte) (ack : Level) : (s.play (openLetters x b ack)).held := by
  cases x
  · exact play_start_held s b ack
  · exact play_repStart_held s b ack

theorem play_read_held (s : State) (f : Nat → Level) (last : Bool) : (s.play (readLetters f last)).held := by
  have := play_held s ([.relSda]
    ++ [0, 1, 2, 3, 4, 5, 6, 7].flatMap (fun j => [.full, .relScl, .askSda (f j), .lowScl])
    ++ [if last then .relSda else .lowSda, .relScl, .half])
  simpa [readLetters] using this

theorem play_writes_held (s : State) (bs : List Byte) (f : Nat → Level) (h : bs ≠ []) :
    (s.play (writesLetters bs f)).held := by
  induction bs generalizing s f with
  | nil => exact absurd rfl h
  | cons b bs ih =>
    rw [writesLetters, play_append]
    cases bs with
    | nil => rw [writesLetters, play_nil]; exact play_write_held s b _
    | cons c bs => exact ih _ _ (by simp)

/-- From `HELD`, Reads end `HELD`, even none of them. -/
theorem play_reads_held {s : State} (n : Nat) (f : Nat → Level) (h : s.held) : (s.play (readsLetters n f)).held := by
  induction n generalizing s f with
  | zero => exact h
  | succ n ih => rw [readsLetters, play_append]; exact ih _ (play_read_held s f _)

theorem play_request_held (s : State) (x : Bool) (a : BitVec 7) (q : Nat) (i : BitVec 32) (z : BitVec 8)
    (f : Nat → Level) : (s.play (requestLetters x a q i z false f)).held := by
  rw [requestLetters, if_neg Bool.false_ne_true, List.append_nil, play_append, play_append]
  exact play_reads_held _ _ (play_open_held _ _ _ _)

theorem play_failedAttempts_released (s : State) (b : Byte) {n : Nat} (h : 1 ≤ n) :
    (s.play (failedAttempts b n)).bothReleased := by
  obtain ⟨m, rfl⟩ : ∃ m, n = m + 1 := ⟨n - 1, by omega⟩
  have : failedAttempts b (m + 1) = failedAttempts b m ++ startLetters b .high ++ stopLetters := by
    simp [failedAttempts, List.replicate_succ']
  rw [this]
  exact play_stop_released _ _

/-! ### What the layers below the controller preserve -/

/-- The procedure leaves the observation `f` of the state as it was. -/
def Preserves {α β : Type} (f : State → β) (x : Run α) : Prop := ∀ s a t, x s = .ok (a, t) → f t = f s

section Preserves

variable {β : Type} {f : State → β}

theorem preserves_pure {α : Type} (a : α) : Preserves f (pure a : Run α) := fun _ _ _ h => by cases h; rfl

theorem preserves_get : Preserves f (get : Run State) := fun _ _ _ h => by cases h; rfl

theorem preserves_bind {α γ : Type} {x : Run α} {g : α → Run γ} (hx : Preserves f x) (hg : ∀ a, Preserves f (g a)) :
    Preserves f (x >>= g) := fun s b t h => by
  obtain ⟨a, u, ha, hb⟩ := run_bind_ok h
  exact (hg a u b t hb).trans (hx s a u ha)

theorem preserves_ite {α : Type} {c : Prop} [Decidable c] {x y : Run α} (hx : Preserves f x) (hy : Preserves f y) :
    Preserves f (if c then x else y) := by
  split
  · exact hx
  · exact hy

theorem preserves_modify {g : State → State} (h : ∀ s, f (g s) = f s) : Preserves f (modify g : Run PUnit) :=
  fun s _ _ hm => by cases hm; exact h s

variable (hf : ∀ s ls, f (State.play s ls) = f s)
include hf

theorem preserves_release (p : Pin) : Preserves f (release p) := fun s _ _ h => by
  rw [release_run] at h
  cases h
  cases p
  · exact hf s [.relSda]
  · exact hf s [.relScl]

theorem preserves_driveLow (p : Pin) : Preserves f (driveLow p) := fun s _ _ h => by
  by_cases hh : s.cfg.pullupAssist = true ∨ (s.pad p).latch = .low
  · rw [driveLow_run hh] at h
    cases h
    cases p
    · exact hf s [.lowSda]
    · exact hf s [.lowScl]
  · rw [not_or, Bool.not_eq_true] at hh
    rw [driveLow_fault hh.1 (by cases hl : (s.pad p).latch <;> simp_all)] at h
    cases h

theorem preserves_readPin (p : Pin) : Preserves f (readPin p) := fun s _ _ h => by
  rw [readPin_run] at h
  cases h
  cases p
  · exact hf s [.askSda (s.answer 0)]
  · exact hf s [.askScl (s.answer 0)]

theorem preserves_waitFull : Preserves f waitFull := fun s _ _ h => by
  rw [waitFull_run] at h
  cases h
  exact hf s _

theorem preserves_waitHalf : Preserves f waitHalf := fun s _ _ h => by
  rw [waitHalf_run] at h
  cases h
  exact hf s _

theorem preserves_sendBits (b : Byte) (n : Nat) : Preserves f (sendBits b n) := by
  induction n with
  | zero => exact preserves_pure _
  | succ n ih =>
    exact preserves_bind (preserves_ite (preserves_release hf _) (preserves_driveLow hf _)) fun _ =>
      preserves_bind (preserves_release hf _) fun _ => preserves_bind (preserves_waitFull hf) fun _ =>
      preserves_bind (preserves_driveLow hf _) fun _ => ih

theorem preserves_writeByte (b : Byte) : Preserves f (writeByte b) :=
  preserves_bind (preserves_sendBits hf b 8) fun _ => preserves_bind (preserves_release hf _) fun _ =>
    preserves_bind (preserves_release hf _) fun _ => preserves_bind (preserves_waitHalf hf) fun _ =>
    preserves_bind (preserves_readPin hf _) fun _ => preserves_bind (preserves_driveLow hf _) fun _ =>
    preserves_bind (preserves_waitHalf hf) fun _ => preserves_bind (preserves_driveLow hf _) fun _ => preserves_pure _

theorem preserves_receiveBits (n : Nat) (r : Byte) : Preserves f (receiveBits n r) := by
  induction n generalizing r with
  | zero => exact preserves_pure _
  | succ n ih =>
    exact preserves_bind (preserves_waitFull hf) fun _ => preserves_bind (preserves_release hf _) fun _ =>
      preserves_bind (preserves_readPin hf _) fun _ => preserves_bind (preserves_driveLow hf _) fun _ => ih _

theorem preserves_readByte (last : Bool) : Preserves f (readByte last) := by
  have tail : ∀ r, Preserves f (do
      release .scl
      waitHalf
      driveLow .scl
      waitHalf
      driveLow .sda
      return r : Run Byte) := fun _ =>
    preserves_bind (preserves_release hf _) fun _ => preserves_bind (preserves_waitHalf hf) fun _ =>
      preserves_bind (preserves_driveLow hf _) fun _ => preserves_bind (preserves_waitHalf hf) fun _ =>
      preserves_bind (preserves_driveLow hf _) fun _ => preserves_pure _
  exact preserves_bind (preserves_release hf _) fun _ => preserves_bind (preserves_receiveBits hf _ _) fun r =>
    preserves_ite (preserves_bind (preserves_release hf _) fun _ => tail r)
      (preserves_bind (preserves_driveLow hf _) fun _ => tail r)

theorem preserves_start (b : Byte) : Preserves f (start b) :=
  preserves_bind (preserves_driveLow hf _) fun _ => preserves_bind (preserves_waitFull hf) fun _ =>
    preserves_bind (preserves_driveLow hf _) fun _ => preserves_writeByte hf b

theorem preserves_repStart (b : Byte) : Preserves f (repStart b) :=
  preserves_bind (preserves_release hf _) fun _ => preserves_bind (preserves_release hf _) fun _ =>
    preserves_bind (preserves_waitFull hf) fun _ => preserves_start hf b

theorem preserves_openPhase (b : Byte) : Preserves f (openPhase b) :=
  preserves_bind preserves_get fun _ => preserves_ite (preserves_repStart hf b) (preserves_start hf b)

theorem preserves_stop : Preserves f stop :=
  preserves_bind (preserves_driveLow hf _) fun _ => preserves_bind (preserves_waitFull hf) fun _ =>
    preserves_bind (preserves_release hf _) fun _ => preserves_bind (preserves_waitFull hf) fun _ =>
    preserves_bind (preserves_release hf _) fun _ => preserves_waitFull hf

theorem preserves_startAttempts (b : Byte) (n : Nat) : Preserves f (startAttempts b n) := by
  induction n with
  | zero => exact preserves_pure _
  | succ n ih =>
    exact preserves_bind (preserves_start hf b) fun _ =>
      preserves_ite (preserves_pure _) (preserves_bind (preserves_stop hf) fun _ => ih)

theorem preserves_startWait (b : Byte) : Preserves f (startWait b) :=
  preserves_bind preserves_get fun _ => preserves_startAttempts hf b _

theorem preserves_initBus : Preserves f initBus :=
  preserves_bind (preserves_driveLow hf _) fun _ => preserves_bind (preserves_driveLow hf _) fun _ =>
    preserves_bind (preserves_release hf _) fun _ => preserves_bind (preserves_release hf _) fun _ =>
    preserves_bind (preserves_readPin hf _) fun _ => preserves_bind (preserves_readPin hf _) fun _ => preserves_pure _

end Preserves

/-! ### The invariant through a compact trace -/

theorem drivable_of_latches {s : State} (h : s.cfg.pullupAssist = false → ∀ p, (s.pad p).latch = .low) : s.drivable := by
  cases hp : s.cfg.pullupAssist
  · exact .inr ⟨h hp .sda, h hp .scl⟩
  · exact .inl hp

/-- A character of the notation leaves a pad as it was, drives it low, or releases it. -/
theorem play_pad (l : Letter) (s : State) (p : Pin) :
    (l.play s).pad p = s.pad p ∨ (l.play s).pad p = { mode := .output, latch := .low } ∨
      (((l.play s).pad p).mode = releasedMode s.cfg ∧
        (s.cfg.pullupAssist = false → ((l.play s).pad p).latch = (s.pad p).latch)) := by
  cases l <;> cases p <;>
    first
    | exact .inl rfl
    | exact .inr (.inl rfl)
    | exact .inr (.inr ⟨rfl, fun h => by simp [Letter.play, State.released, State.setPad, State.pad, h]⟩)

theorem inv_letter {s : State} (l : Letter) (h : s.Inv) : (l.play s).Inv := by
  have hc : (l.play s).cfg = s.cfg := by cases l <;> rfl
  refine ⟨hc ▸ h.parameters, by rw [hc]; cases l <;> exact h.capacity, by cases l <;> exact h.cursor,
    by rw [hc]; cases l <;> exact h.valid, ?_, ?_, ?_, by cases l <;> exact h.errorCode,
    by cases l <;> first | rfl | exact h.noWindow, by cases l <;> exact h.ready⟩
  · intro p hm
    rcases play_pad l s p with hp | hp | ⟨hp, -⟩
    · rw [hp] at hm ⊢
      exact h.drivesLow p hm
    · rw [hp]
    · rw [hp] at hm
      exact absurd hm (releasedMode_ne_output _)
  · intro ha p
    rw [hc] at ha
    rcases play_pad l s p with hp | hp | ⟨-, hp⟩
    · rw [hp]
      exact h.latchLow ha p
    · rw [hp]
    · rw [hp ha]
      exact h.latchLow ha p
  · intro ha p
    rw [hc] at ha
    rcases play_pad l s p with hp | hp | ⟨hp, -⟩
    · rw [hp]
      exact h.noPullup ha p
    · rw [hp]
      simp
    · rw [hp]
      simp [releasedMode, ha]

/-- No compact trace breaks the invariant. -/
theorem inv_play {s : State} (ls : List Letter) (h : s.Inv) : (s.play ls).Inv := by
  induction ls generalizing s with
  | nil => exact h
  | cons l ls ih => exact ih (inv_letter l h)

theorem play_setSequencer (s : State) (x : Sequencer) (ls : List Letter) :
    ({ s with sequencer := x } : State).play ls = { s.play ls with sequencer := x } := by
  induction ls generalizing s with
  | nil => rfl
  | cons l ls ih =>
    rw [play_cons, play_cons, ← ih]
    congr 1
    cases l <;> rfl

theorem play_setResponses (s : State) (r : List Response) (ls : List Letter) :
    ({ s with responses := r } : State).play ls = { s.play ls with responses := r } := by
  induction ls generalizing s with
  | nil => rfl
  | cons l ls ih =>
    rw [play_cons, play_cons, ← ih]
    congr 1
    cases l <;> rfl

/-- A count below 256 as `VALUE` (R91). -/
theorem byteValue_ofNat {m : Nat} (h : m < 256) : byteValue (BitVec.ofNat 8 m) = BitVec.ofNat 16 m := by
  apply BitVec.eq_of_toNat_eq
  unfold byteValue
  simp
  omega

/-- A byte in a response word (R90, R91). -/
theorem responseWord_byteValue (v : Byte) : responseWord (byteValue v) = v.zeroExtend 32 := by
  apply BitVec.eq_of_toNat_eq
  have := v.isLt
  unfold responseWord byteValue
  simp only [BitVec.toNat_setWidth]
  omega

end Sys2Proof.Machine
end

