-- ==== Sys2Proof/Laws/Conditions.lean ====
section
/-! SUPPORT. The wire conditions and the masked windows along a compact trace (20_memory.md R58, 40_pin_driver.md R103), and
that a compact trace with its answers hidden does not depend on them (42_transfer_controller.md R136). -/

namespace Sys2Proof.Machine

/-! ### Conditions compose -/

/-- The lines after a list of events. -/
def linesAfter (l : Lines) : List Event → Lines
  | [] => l
  | .setPinMode p m :: rest => linesAfter (l.switch p m) rest
  | .writeOutput _ _ :: rest => linesAfter l rest
  | .readInput _ _ :: rest => linesAfter l rest
  | .delayMicroseconds _ :: rest => linesAfter l rest
  | .maskInterrupts :: rest => linesAfter l rest
  | .unmaskInterrupts :: rest => linesAfter l rest

theorem conditions_append (l : Lines) (a b : List Event) :
    conditions l (a ++ b) = conditions l a ++ conditions (linesAfter l a) b := by
  unfold conditions
  induction a generalizing l with
  | nil => rfl
  | cons x a ih => cases x <;> simp [pinTrace, linesAfter, ih, conditionsAlong]

theorem linesAfter_append (l : Lines) (a b : List Event) : linesAfter l (a ++ b) = linesAfter (linesAfter l a) b := by
  induction a generalizing l with
  | nil => rfl
  | cons x a ih => cases x <;> simp [linesAfter, ih]

/-- A compact trace takes the lines from `l` to `l'` and puts the conditions `cs` on the wire. -/
def LineEffect (c : Config) (ls : List Letter) (l l' : Lines) (cs : List Condition) : Prop :=
  conditions l (expand c ls) = cs ∧ linesAfter l (expand c ls) = l'

theorem lineEffect_nil (c : Config) (l : Lines) : LineEffect c [] l l [] := ⟨rfl, rfl⟩

theorem lineEffect_append {c : Config} {ls ms : List Letter} {l l' l'' : Lines} {cs ds : List Condition}
    (h₁ : LineEffect c ls l l' cs) (h₂ : LineEffect c ms l' l'' ds) : LineEffect c (ls ++ ms) l l'' (cs ++ ds) := by
  have he : expand c (ls ++ ms) = expand c ls ++ expand c ms := List.flatMap_append
  unfold LineEffect at *
  rw [he, conditions_append, linesAfter_append, h₁.1, h₁.2, h₂.1, h₂.2]
  exact ⟨rfl, rfl⟩

/-- Clock low, data as said. -/
abbrev clockLow (x : Bool) : Lines := { sdaReleased := x, sclReleased := false }

/-- Both lines released. -/
abbrev idleLines : Lines := { sdaReleased := true, sclReleased := true }

/-- Both lines driven low. -/
abbrev heldLines : Lines := { sdaReleased := false, sclReleased := false }

theorem lineEffect_bit (c : Config) (x y : Bool) : LineEffect c (bitLetters y) (clockLow x) (clockLow y) [] := by
  unfold LineEffect
  cases hp : c.pullupAssist <;> cases x <;> cases y <;>
    simp [bitLetters, expand, Letter.events, releaseEvents, driveLowEvents, releasedMode, hp, conditions, conditionsAlong,
      pinTrace, linesAfter, Lines.switch, conditionOf]

theorem lineEffect_bits (c : Config) (b : Byte) (is : List Nat) (x : Bool) :
    ∃ y, LineEffect c (is.flatMap (fun i => bitLetters (b.getLsbD i))) (clockLow x) (clockLow y) [] := by
  induction is generalizing x with
  | nil => exact ⟨x, lineEffect_nil c _⟩
  | cons i is ih =>
    obtain ⟨y, hy⟩ := ih (b.getLsbD i)
    exact ⟨y, lineEffect_append (lineEffect_bit c x _) hy⟩

theorem lineEffect_ninth (c : Config) (x : Bool) (ack : Level) :
    LineEffect c [.relSda, .relScl, .half, .askSda ack, .lowScl, .half, .lowSda] (clockLow x) heldLines [] := by
  unfold LineEffect
  cases hp : c.pullupAssist <;> cases x <;>
    simp [expand, Letter.events, releaseEvents, driveLowEvents, releasedMode, hp, conditions, conditionsAlong, pinTrace,
      linesAfter, Lines.switch, conditionOf]

theorem lineEffect_write (c : Config) (b : Byte) (ack : Level) (x : Bool) :
    LineEffect c (writeLetters b ack) (clockLow x) heldLines [] := by
  obtain ⟨y, hy⟩ := lineEffect_bits c b [7, 6, 5, 4, 3, 2, 1, 0] x
  exact lineEffect_append hy (lineEffect_ninth c y ack)

/-- A release releases the line. -/
theorem released_ne_output (c : Config) : (releasedMode c != .output) = true := by
  unfold releasedMode
  split <;> rfl

/-- A Write from `IDLE`: an accidental START exactly when bit 7 is 0 (R115 e, R194). -/
theorem lineEffect_write_idle (c : Config) (b : Byte) (ack : Level) :
    LineEffect c (writeLetters b ack) idleLines heldLines (if b.getLsbD 7 then [] else [.start]) := by
  have first : LineEffect c (bitLetters (b.getLsbD 7)) idleLines (clockLow (b.getLsbD 7))
      (if b.getLsbD 7 then [] else [.start]) := by
    unfold LineEffect
    cases hp : c.pullupAssist <;> cases b.getLsbD 7 <;>
      simp [bitLetters, expand, Letter.events, releaseEvents, driveLowEvents, released_ne_output, hp, conditions, conditionsAlong,
        pinTrace, linesAfter, Lines.switch, conditionOf]
  obtain ⟨y, hy⟩ := lineEffect_bits c b [6, 5, 4, 3, 2, 1, 0] (b.getLsbD 7)
  have := lineEffect_append (lineEffect_append first hy) (lineEffect_ninth c y ack)
  rwa [List.append_nil, List.append_nil] at this

theorem lineEffect_start_idle (c : Config) (b : Byte) (ack : Level) :
    LineEffect c (startLetters b ack) idleLines heldLines [.start] := by
  refine lineEffect_append (l' := clockLow false) (cs := [.start]) ?_ (lineEffect_write c b ack false)
  unfold LineEffect
  cases hp : c.pullupAssist <;>
    simp [expand, Letter.events, driveLowEvents, hp, conditions, conditionsAlong, pinTrace, linesAfter, Lines.switch,
      conditionOf]

theorem lineEffect_start_held (c : Config) (b : Byte) (ack : Level) :
    LineEffect c (startLetters b ack) heldLines heldLines [] := by
  refine lineEffect_append (l' := clockLow false) (cs := []) ?_ (lineEffect_write c b ack false)
  unfold LineEffect
  cases hp : c.pullupAssist <;>
    simp [expand, Letter.events, driveLowEvents, hp, conditions, conditionsAlong, pinTrace, linesAfter, Lines.switch,
      conditionOf]

theorem lineEffect_repStart (c : Config) (b : Byte) (ack : Level) :
    LineEffect c (repStartLetters b ack) heldLines heldLines [.start] := by
  refine lineEffect_append (l' := idleLines) (cs := []) ?_ (lineEffect_start_idle c b ack)
  unfold LineEffect
  cases hp : c.pullupAssist <;>
    simp [expand, Letter.events, releaseEvents, releasedMode, hp, conditions, conditionsAlong, pinTrace, linesAfter,
      Lines.switch, conditionOf]

theorem lineEffect_repStart_idle (c : Config) (b : Byte) (ack : Level) :
    LineEffect c (repStartLetters b ack) idleLines heldLines [.start] := by
  refine lineEffect_append (l' := idleLines) (cs := []) ?_ (lineEffect_start_idle c b ack)
  unfold LineEffect
  simp [expand, Letter.events, releaseEvents, released_ne_output, conditions, conditionsAlong, pinTrace, linesAfter,
    Lines.switch, conditionOf]

theorem lineEffect_stop_held (c : Config) : LineEffect c stopLetters heldLines idleLines [.stop] := by
  unfold LineEffect
  cases hp : c.pullupAssist <;>
    simp [stopLetters, expand, Letter.events, releaseEvents, driveLowEvents, hp, conditions, conditionsAlong, pinTrace,
      linesAfter, Lines.switch, conditionOf, released_ne_output]

theorem lineEffect_stop_idle (c : Config) : LineEffect c stopLetters idleLines idleLines [.start, .stop] := by
  unfold LineEffect
  cases hp : c.pullupAssist <;>
    simp [stopLetters, expand, Letter.events, releaseEvents, driveLowEvents, hp, conditions, conditionsAlong, pinTrace,
      linesAfter, Lines.switch, conditionOf, released_ne_output]

theorem lineEffect_read (c : Config) (f : Nat → Level) (last : Bool) :
    LineEffect c (readLetters f last) heldLines heldLines [] := by
  unfold LineEffect
  cases hp : c.pullupAssist <;> cases last <;>
    simp [readLetters, expand, Letter.events, releaseEvents, driveLowEvents, releasedMode, hp, conditions, conditionsAlong,
      pinTrace, linesAfter, Lines.switch, conditionOf]

theorem lineEffect_writes (c : Config) (bs : List Byte) (f : Nat → Level) :
    LineEffect c (writesLetters bs f) heldLines heldLines [] := by
  induction bs generalizing f with
  | nil => exact lineEffect_nil c _
  | cons b bs ih => exact lineEffect_append (lineEffect_write c b _ false) (ih _)

theorem lineEffect_reads (c : Config) (n : Nat) (f : Nat → Level) :
    LineEffect c (readsLetters n f) heldLines heldLines [] := by
  induction n generalizing f with
  | zero => exact lineEffect_nil c _
  | succ n ih => exact lineEffect_append (lineEffect_read c _ _) (ih _)

/-! ### Windows compose -/

theorem windowed_append {a b : List Event} (ha : windowed a = true) (hb : windowed b = true) :
    windowed (a ++ b) = true := by
  simp only [windowed, decide_eq_true_eq] at *
  rw [List.foldlM_append, ha]
  exact hb

/-! ### Answers hidden -/

/-- A character without its answer. -/
def Letter.hideAnswer : Letter → Letter
  | .askSda _ => .askSda .low
  | .askScl _ => .askScl .low
  | .relSda => .relSda
  | .lowSda => .lowSda
  | .relScl => .relScl
  | .lowScl => .lowScl
  | .full => .full
  | .half => .half

theorem expand_hideAnswer (c : Config) (ls : List Letter) :
    (expand c ls).map Event.hideAnswer = expand c (ls.map Letter.hideAnswer) := by
  have one : ∀ l : Letter, (l.events c).map Event.hideAnswer = l.hideAnswer.events c := fun l => by
    cases l <;> simp only [Letter.events, releaseEvents, driveLowEvents, Letter.hideAnswer] <;> (try split) <;> rfl
  induction ls with
  | nil => rfl
  | cons l ls ih =>
    simp only [expand, List.flatMap_cons, List.map_append, List.map_cons] at *
    rw [one, ih]

theorem askCount_hideAnswer (ls : List Letter) : askCount (ls.map Letter.hideAnswer) = askCount ls := by
  induction ls with
  | nil => rfl
  | cons l ls ih =>
    simp only [askCount, List.map_cons, List.countP_cons] at *
    rw [ih]
    cases l <;> rfl

theorem hide_write (b : Byte) (x y : Level) :
    (writeLetters b x).map Letter.hideAnswer = (writeLetters b y).map Letter.hideAnswer := by
  simp [writeLetters, Letter.hideAnswer]

theorem hide_start (b : Byte) (x y : Level) :
    (startLetters b x).map Letter.hideAnswer = (startLetters b y).map Letter.hideAnswer := by
  simp [startLetters, hide_write b x y]

theorem hide_open (inTransmission : Bool) (b : Byte) (x y : Level) :
    (openLetters inTransmission b x).map Letter.hideAnswer = (openLetters inTransmission b y).map Letter.hideAnswer := by
  cases inTransmission
  · exact hide_start b x y
  · simp [openLetters, repStartLetters, hide_start b x y]

theorem hide_read (f g : Nat → Level) (last : Bool) :
    (readLetters f last).map Letter.hideAnswer = (readLetters g last).map Letter.hideAnswer := by
  simp [readLetters, Letter.hideAnswer]

theorem hide_writes (bs : List Byte) (f g : Nat → Level) :
    (writesLetters bs f).map Letter.hideAnswer = (writesLetters bs g).map Letter.hideAnswer := by
  induction bs generalizing f g with
  | nil => rfl
  | cons b bs ih =>
    rw [writesLetters, writesLetters, List.map_append, List.map_append, hide_write b (f 0) (g 0),
      ih (fun k => f (k + 1)) (fun k => g (k + 1))]

theorem hide_reads (n : Nat) (f g : Nat → Level) :
    (readsLetters n f).map Letter.hideAnswer = (readsLetters n g).map Letter.hideAnswer := by
  induction n generalizing f g with
  | zero => rfl
  | succ n ih =>
    rw [readsLetters, readsLetters, List.map_append, List.map_append, hide_read f g,
      ih (fun k => f (k + 8)) (fun k => g (k + 8))]

theorem hide_request (x : Bool) (a : BitVec 7) (q : Nat) (i : BitVec 32) (z : BitVec 8) (sendStop : Bool)
    (f g : Nat → Level) :
    (requestLetters x a q i z sendStop f).map Letter.hideAnswer =
      (requestLetters x a q i z sendStop g).map Letter.hideAnswer := by
  have hp : (pointerLetters x a i z f).map Letter.hideAnswer = (pointerLetters x a i z g).map Letter.hideAnswer := by
    unfold pointerLetters
    split
    · rfl
    · rw [List.map_append, List.map_append, hide_open x _ (f 0) (g 0),
        hide_writes _ (fun k => f (1 + k)) (fun k => g (1 + k))]
  unfold requestLetters
  simp only [List.map_append]
  rw [hp, hide_open _ _ (f (readAckIndex z)) (g (readAckIndex z)),
    hide_reads q (fun k => f (readAckIndex z + 1 + k)) (fun k => g (readAckIndex z + 1 + k))]

end Sys2Proof.Machine
end

