-- ==== Sys2Proof/Laws/PerInstr.lean ====
section
/-! SUPPORT. The family EncodedInItsRow: the word of every command lies in its own row of the opcode table, that is its `OP`
is the row's and every reserved bit is 0 (30_encoding.md R77). -/

namespace Sys2Proof.Laws.EncodedInItsRow

/-- The word of `i` selects the row of `i`: `w & mask = match` (R77). -/
def Statement (i : Instr) : Prop :=
  encodeWord i &&& i.opcode.format.mask = i.opcode.matchWord

theorem initializeBus : Statement .initializeBus := by
  unfold Statement
  decide

theorem beginTransmission (a : BitVec 7) : Statement (.beginTransmission a) := by
  show layoutWord _ _ _ _ _ _ &&& Format.address.mask = Opcode.matchWord _
  rw [mask_address, matchWord_layout, and_layout]
  simp [and_ones8]

theorem write (b : Byte) : Statement (.write b) := by
  show layoutWord _ _ _ _ _ _ &&& Format.byte.mask = Opcode.matchWord _
  rw [mask_byte, matchWord_layout, and_layout]
  simp [and_ones8]

theorem writeBytes (c : BitVec 8) (bs : List Byte) : Statement (.writeBytes c bs) := by
  show layoutWord _ _ _ _ _ _ &&& Format.byte.mask = Opcode.matchWord _
  rw [mask_byte, matchWord_layout, and_layout]
  simp [and_ones8]

theorem endTransmission (s : Bool) : Statement (.endTransmission s) := by
  show layoutWord _ _ _ _ _ _ &&& Format.flag.mask = Opcode.matchWord _
  rw [mask_flag, matchWord_layout, and_layout]
  simp [and_ones8]

theorem requestFrom (a : BitVec 7) (q : BitVec 8) (i : BitVec 32) (z : BitVec 8) (s : Bool) : Statement (.requestFrom a q i z s) := by
  show layoutWord _ _ _ _ _ _ &&& Format.request.mask = Opcode.matchWord _
  rw [mask_request, matchWord_layout, and_layout]
  simp [and_ones8]

theorem available : Statement .available := by
  unfold Statement
  decide

theorem read : Statement .read := by
  unfold Statement
  decide

theorem peek : Statement .peek := by
  unfold Statement
  decide

theorem flush : Statement .flush := by
  unfold Statement
  decide

theorem engStart (b : Byte) : Statement (.engStart b) := by
  show layoutWord _ _ _ _ _ _ &&& Format.byte.mask = Opcode.matchWord _
  rw [mask_byte, matchWord_layout, and_layout]
  simp [and_ones8]

theorem engRepStart (b : Byte) : Statement (.engRepStart b) := by
  show layoutWord _ _ _ _ _ _ &&& Format.byte.mask = Opcode.matchWord _
  rw [mask_byte, matchWord_layout, and_layout]
  simp [and_ones8]

theorem engStartWait (b : Byte) : Statement (.engStartWait b) := by
  show layoutWord _ _ _ _ _ _ &&& Format.byte.mask = Opcode.matchWord _
  rw [mask_byte, matchWord_layout, and_layout]
  simp [and_ones8]

theorem engStop : Statement .engStop := by
  unfold Statement
  decide

theorem engWrite (b : Byte) : Statement (.engWrite b) := by
  show layoutWord _ _ _ _ _ _ &&& Format.byte.mask = Opcode.matchWord _
  rw [mask_byte, matchWord_layout, and_layout]
  simp [and_ones8]

theorem engRead (last : Bool) : Statement (.engRead last) := by
  show layoutWord _ _ _ _ _ _ &&& Format.flag.mask = Opcode.matchWord _
  rw [mask_flag, matchWord_layout, and_layout]
  simp [and_ones8]

theorem pinRelease (p : Pin) : Statement (.pinRelease p) := by
  unfold Statement
  cases p <;> decide

theorem pinDriveLow (p : Pin) : Statement (.pinDriveLow p) := by
  unfold Statement
  cases p <;> decide

theorem pinRead (p : Pin) : Statement (.pinRead p) := by
  unfold Statement
  cases p <;> decide

end Sys2Proof.Laws.EncodedInItsRow
end

