-- ==== Sys2Proof/Laws/Step.lean ====
section
/-! SUPPORT. What one step does, by what the host offers (10_state.md R36, 30_encoding.md R75, 70_reset_and_hazards.md R185,
R186). -/

namespace Sys2Proof.Machine

theorem step_wait {s : State} (hw : s.cfg.wf = true) (ho : s.offered = []) : step s = .next s := by
  unfold step
  rw [hw, ho]
  cases s.sequencer <;> rfl

theorem step_reset {s : State} {rest : List HostInput} (hw : s.cfg.wf = true) (ho : s.offered = .reset :: rest) :
    step s = .next (s.resetBlock rest) := by
  unfold step
  rw [hw, ho]
  cases s.sequencer <;> rfl

theorem step_packet {s : State} {p : Packet} {rest : List HostInput} (hw : s.cfg.wf = true) (hr : s.sequencer = .ready)
    (ho : s.offered = .packet p :: rest) : step s = runPacket p (s.accept rest) := by
  unfold step
  rw [hw, hr, ho]
  rfl

theorem step_busy {s : State} {p : Packet} {rest : List HostInput} (hw : s.cfg.wf = true) (hb : s.sequencer = .busy)
    (ho : s.offered = .packet p :: rest) : step s = .next s := by
  unfold step
  rw [hw, hb, ho]
  rfl

/-- The four ways a step can answer a next state. -/
theorem step_cases {s t : State} (h : step s = .next t) :
    s.cfg.wf = true ∧
      (t = s ∨ (∃ rest, s.offered = .reset :: rest ∧ t = s.resetBlock rest) ∨
        ∃ p rest, s.offered = .packet p :: rest ∧ s.sequencer = .ready ∧ runPacket p (s.accept rest) = .next t) := by
  have hw : s.cfg.wf = true := by
    by_contra hw
    rw [step, if_neg hw] at h
    cases h
  refine ⟨hw, ?_⟩
  cases ho : s.offered with
  | nil =>
    rw [step_wait hw ho] at h
    cases h
    exact .inl rfl
  | cons x rest =>
    cases x with
    | reset =>
      rw [step_reset hw ho] at h
      cases h
      exact .inr (.inl ⟨rest, rfl, rfl⟩)
    | packet p =>
      cases hs : s.sequencer with
      | ready =>
        rw [step_packet hw hs ho] at h
        exact .inr (.inr ⟨p, rest, rfl, rfl, h⟩)
      | busy =>
        rw [step_busy hw hs ho] at h
        cases h
        exact .inl rfl

end Sys2Proof.Machine
end

