-- ==== Sys2Proof/Tests/Slice0.lean ====
section
/-! SUPPORT. The model's own tests: well-formedness, a word of every row decoded, one step per command against the spec's
vectors (95_test_vectors.md V1 to V61 and the examples of R92 to R153), and a witness for the hypotheses of every statement. -/

namespace Sys2Proof.Tests

open Sys2Proof.Machine

-- One theorem at a time: each evaluates a step in the kernel.
set_option Elab.async false

/-! ### Helpers -/

/-- A compact trace read from its text (R19); blanks only group. -/
def lettersOf : List Char → List Letter
  | [] => []
  | '?' :: '0' :: rest => .askSda .low :: lettersOf rest
  | '?' :: '1' :: rest => .askSda .high :: lettersOf rest
  | '!' :: '0' :: rest => .askScl .low :: lettersOf rest
  | '!' :: '1' :: rest => .askScl .high :: lettersOf rest
  | 'D' :: rest => .relSda :: lettersOf rest
  | 'd' :: rest => .lowSda :: lettersOf rest
  | 'C' :: rest => .relScl :: lettersOf rest
  | 'c' :: rest => .lowScl :: lettersOf rest
  | 'w' :: rest => .full :: lettersOf rest
  | 'h' :: rest => .half :: lettersOf rest
  | _ :: rest => lettersOf rest

/-- Answers written as the digits of the vectors. -/
def answersOf : List Nat → List Level
  | [] => []
  | 0 :: rest => .low :: answersOf rest
  | _ :: rest => .high :: answersOf rest

/-- The answers of a slave that sends a byte, most significant bit first. -/
def sent (b : Byte) : List Level := [7, 6, 5, 4, 3, 2, 1, 0].map (fun i => if b.getLsbD i then .high else .low)

/-- The state `s` in which the host offers one packet and the environment will answer `answers`. -/
def offering (s : State) (word : CommandWord) (payload : List Byte) (answers : List Level) : State :=
  { s with offered := [.packet { word := word, payload := payload }], answers := answers }

/-- `HELD` with an open transmission. -/
def openState : State :=
  { State.reset with
    inTransmission := true
    sda := { mode := .output, latch := .low }
    scl := { mode := .output, latch := .low } }

/-- An instance with pull-up assist, both latches high, as after a release they may be. -/
def pullupState : State :=
  { State.resetWith { Config.default with pullupAssist := true } with
    sda := { mode := .inputPullup, latch := .high }
    scl := { mode := .inputPullup, latch := .high } }

/-- A latch that is high without pull-up assist: no run reaches it. -/
def highState : State := { State.reset with sda := { mode := .input, latch := .high } }

/-- Two bytes received, one of them read. -/
def filledState : State :=
  { State.reset with rxbuf := [0x12, 0xFF] ++ List.replicate 30 0, rxCursor := 1, rxValid := 2 }

/-- An instance with another bound of Start-Wait. -/
def retriesState (n : BitVec 16) (answers : List Level) : State :=
  { State.resetWith { Config.default with startWaitRetries := n } with answers := answers }

/-- What the block showed in one step: its events and its responses. -/
def shown (s : State) : Option (List Event × List Response) :=
  match step s with
  | .next t => some (t.trace, t.responses)
  | .fault _ => none
  | .refused _ => none

/-- What a vector says a step shows: a compact trace and a response. -/
def vector (c : Config) (trace : String) (r : Response) : Option (List Event × List Response) :=
  some (expand c (lettersOf trace.toList), [r])

/-- The Transaction State, the cursor and the length after one step. -/
def registers (s : State) : Option (Bool × Err × BitVec 8 × BitVec 8) :=
  match step s with
  | .next t => some (t.inTransmission, t.lastError, t.rxCursor, t.rxValid)
  | .fault _ => none
  | .refused _ => none

/-- The responses, the error code, the bytes made available and the number of pin reads after one step. -/
def result (s : State) : Option (List Response × Err × List Byte × Nat) :=
  match step s with
  | .next t => some (t.responses, t.lastError, t.rxbuf.take t.rxValid.toNat, t.reads)
  | .fault _ => none
  | .refused _ => none

/-- The fault one step stopped at. -/
def faultOf (s : State) : Option Fault :=
  match step s with
  | .next _ => none
  | .fault f => some f
  | .refused _ => none

/-! ### Well-formedness (R88) -/

theorem test_wellFormed_short_payload : Instr.wellFormed (.writeBytes 2 [1]) = false := by decide
theorem test_wellFormed_long_payload : Instr.wellFormed (.writeBytes 0 [1]) = false := by decide
theorem test_wellFormed_payload : Instr.wellFormed (.writeBytes 2 [0xCA, 0xFE]) = true := by decide

/-! ### Decoding: a word of every row, from R78 and the examples of each rule -/

theorem test_decode_initialize : decode ⟨0x0100000000000000, []⟩ = .ok .initializeBus := by decide
theorem test_decode_begin : decode ⟨0x0250000000000000, []⟩ = .ok (.beginTransmission 0x50) := by decide
theorem test_decode_write : decode ⟨0x0300100000000000, []⟩ = .ok (.write 0x10) := by decide
theorem test_decode_writeBytes : decode ⟨0x0400020000000000, [0xCA, 0xFE]⟩ = .ok (.writeBytes 2 [0xCA, 0xFE]) := by decide
theorem test_decode_end : decode ⟨0x0580000000000000, []⟩ = .ok (.endTransmission true) := by decide
theorem test_decode_end_noStop : decode ⟨0x0500000000000000, []⟩ = .ok (.endTransmission false) := by decide
theorem test_decode_request : decode ⟨0x06D00102AABB1234, []⟩ = .ok (.requestFrom 0x50 1 0xAABB1234 2 true) := by decide
theorem test_decode_request_ones :
    decode ⟨0x06FFFFFFFFFFFFFF, []⟩ = .ok (.requestFrom 0x7F 255 0xFFFFFFFF 255 true) := by decide
theorem test_decode_available : decode ⟨0x0700000000000000, []⟩ = .ok .available := by decide
theorem test_decode_read : decode ⟨0x0800000000000000, []⟩ = .ok .read := by decide
theorem test_decode_peek : decode ⟨0x0900000000000000, []⟩ = .ok .peek := by decide
theorem test_decode_flush : decode ⟨0x0A00000000000000, []⟩ = .ok .flush := by decide
theorem test_decode_engStart : decode ⟨0x2000A00000000000, []⟩ = .ok (.engStart 0xA0) := by decide
theorem test_decode_engRepStart : decode ⟨0x2100A10000000000, []⟩ = .ok (.engRepStart 0xA1) := by decide
theorem test_decode_engStartWait : decode ⟨0x2200A00000000000, []⟩ = .ok (.engStartWait 0xA0) := by decide
theorem test_decode_engStop : decode ⟨0x2300000000000000, []⟩ = .ok .engStop := by decide
theorem test_decode_engWrite : decode ⟨0x2400A50000000000, []⟩ = .ok (.engWrite 0xA5) := by decide
theorem test_decode_engRead : decode ⟨0x2580000000000000, []⟩ = .ok (.engRead true) := by decide
theorem test_decode_pinRelease : decode ⟨0x3001000000000000, []⟩ = .ok (.pinRelease .scl) := by decide
theorem test_decode_pinDriveLow : decode ⟨0x3100000000000000, []⟩ = .ok (.pinDriveLow .sda) := by decide
theorem test_decode_pinRead : decode ⟨0x3201000000000000, []⟩ = .ok (.pinRead .scl) := by decide

/-- The illegal words of V61 whose `OP` is no row's. -/
theorem test_illegal_opcodes :
    [0x0000000000000000, 0x0B00000000000000, 0x2600000000000000, 0x3300000000000000, 0xFF00000000000000].map
      (fun w => decode ⟨w, []⟩) = List.replicate 5 (.error .undefinedOpcode) := by decide

/-- The illegal words of V61 with a reserved bit set. -/
theorem test_illegal_reserved :
    [0x0100000000000001, 0x02D0000000000000, 0x0301100000000000, 0x0300100000000001, 0x0580000000000001,
      0x0581000000000000, 0x3202000000000000].map (fun w => decode ⟨w, []⟩) =
      List.replicate 7 (.error .reservedBit) := by decide

/-- The illegal payloads of V61 (R88). -/
theorem test_illegal_payload :
    decode ⟨0x0400020000000000, [0xCA]⟩ = .error .payloadLength ∧
      decode ⟨0x0300100000000000, [0x00]⟩ = .error .payloadLength := by decide

/-- The encoder writes the words of the examples (V8, R132). -/
theorem test_encode :
    encode (.requestFrom 0x50 4 0x10 1 true) = ⟨0x06D0040100000010, []⟩ ∧
      encode (.writeBytes 3 [1, 2, 3]) = ⟨0x0400030000000000, [1, 2, 3]⟩ := by decide

/-- A table word with payload bits numbered from bit 64 on (log 12). -/
theorem test_decodeTableWord :
    decodeTableWord 80 0xFECA0400020000000000 = some (.writeBytes 2 [0xCA, 0xFE]) ∧
      decodeTableWord 64 0x0400020000000000 = some (.writeBytes 2 [0, 0]) := by decide

/-- Text (R92, R93): program P1 of V70 as it is written there. -/
theorem test_assembler :
    assembleText "INITIALIZE\nBEGIN_TRANSMISSION 0x50 # device\nWRITE_BYTES 2, 0xCA, 0xFE\nEND_TRANSMISSION\nPIN_READ SCL" =
      some [.initializeBus, .beginTransmission 0x50, .writeBytes 2 [0xCA, 0xFE], .endTransmission true, .pinRead .scl] := by
  decide +kernel

/-! ### One step per command -/

/-- V7: data held low. -/
theorem test_initialize_stuck :
    shown (offering State.reset 0x0100000000000000 [] (answersOf [0, 1])) = vector .default "dcDC ?0 !1" 0 := by
  decide +kernel

/-- V30. -/
theorem test_initialize_healthy :
    shown (offering State.reset 0x0100000000000000 [] (answersOf [1, 1])) = vector .default "dcDC ?1 !1" 1 := by
  decide +kernel

/-- V1. -/
theorem test_begin_ack :
    shown (offering State.reset 0x0250000000000000 [] (answersOf [0])) =
      vector .default "dwc DCwc dCwc DCwc dCwc dCwc dCwc dCwc dCwc DCh?0chd" 0 := by
  decide +kernel

/-- V40: from an open transmission with an error recorded, which the command overwrites. -/
theorem test_begin_open_nack :
    registers (offering { openState with lastError := .nackOnData } 0x0250000000000000 [] (answersOf [1])) =
      some (true, .nackOnAddress, 0, 0) := by
  decide +kernel

/-- R131, the example. -/
theorem test_write_ack :
    shown (offering openState 0x0300100000000000 [] (answersOf [0])) =
      vector .default "dCwc dCwc dCwc DCwc dCwc dCwc dCwc dCwc DCh?0chd" 1 := by
  decide +kernel

/-- V41: the first error wins. -/
theorem test_write_firstError :
    registers (offering { openState with lastError := .nackOnAddress } 0x0300010000000000 [] (answersOf [1])) =
      some (true, .nackOnAddress, 0, 0) := by
  decide +kernel

/-- V42: acknowledged, not acknowledged, acknowledged: two bytes are counted, and all three are sent. -/
theorem test_writeBytes_count :
    result (offering openState 0x0400030000000000 [1, 2, 3] (answersOf [0, 1, 0])) = some ([2], .nackOnData, [], 3) := by
  decide +kernel

/-- V42: no byte at all. -/
theorem test_writeBytes_none :
    shown (offering openState 0x0400000000000000 [] []) = vector .default "" 0 := by
  decide +kernel

/-- V43: without a stop the code is delivered and cleared, and nothing moves. -/
theorem test_end_noStop :
    shown (offering { openState with lastError := .nackOnAddress } 0x0500000000000000 [] []) = vector .default "" 2 := by
  decide +kernel

/-- V2, second row: with a stop. -/
theorem test_end_stop :
    shown (offering { openState with lastError := .nackOnData } 0x0580000000000000 [] []) = vector .default "dwCwDw" 3 ∧
      registers (offering { openState with lastError := .nackOnData } 0x0580000000000000 [] []) =
        some (false, .noError, 0, 0) := by
  decide +kernel

/-- V8: the source's scenario, with its 35 pin reads. -/
theorem test_request_scenario :
    result (offering State.reset 0x06D0040100000010 []
      (answersOf [0, 0, 0] ++ sent 0xDE ++ sent 0xAD ++ sent 0xBE ++ sent 0xEF)) =
        some ([4], .noError, [0xDE, 0xAD, 0xBE, 0xEF], 35) := by
  decide +kernel

/-- V74, the first command: no stop, and the trace whole. -/
theorem test_request_noStop :
    shown (offering State.reset 0x0650010000000000 [] (answersOf [0] ++ sent 0x42)) =
      vector .default "dwc DCwc dCwc DCwc dCwc dCwc dCwc dCwc DCwc DCh?0chd
        DwC?0c wC?1c wC?0c wC?0c wC?0c wC?0c wC?1c wC?0c DChchd" 1 := by
  decide +kernel

/-- V71, command 6, on other bytes. -/
theorem test_available : shown (offering filledState 0x0700000000000000 [] []) = vector .default "" 1 := by decide +kernel

/-- V50: a byte of all ones is not the sentinel, and the cursor moves. -/
theorem test_read_byte :
    shown (offering filledState 0x0800000000000000 [] []) = vector .default "" 0xFF ∧
      registers (offering filledState 0x0800000000000000 [] []) = some (false, .noError, 2, 2) := by
  decide +kernel

/-- V50: nothing to read. -/
theorem test_read_empty : shown (offering State.reset 0x0800000000000000 [] []) = vector .default "" 0xFFFF := by
  decide +kernel

/-- V50: the cursor stays. -/
theorem test_peek_byte :
    shown (offering filledState 0x0900000000000000 [] []) = vector .default "" 0xFF ∧
      registers (offering filledState 0x0900000000000000 [] []) = some (false, .noError, 1, 2) := by
  decide +kernel

/-- V50. -/
theorem test_flush : registers (offering filledState 0x0A00000000000000 [] []) = some (false, .noError, 1, 2) := by
  decide +kernel

/-- V22, from `HELD`. -/
theorem test_engStart :
    shown (offering openState 0x2000A00000000000 [] (answersOf [0])) =
      vector .default "dwc DCwc dCwc DCwc dCwc dCwc dCwc dCwc dCwc DCh?0chd" 1 := by
  decide +kernel

/-- V22. -/
theorem test_engRepStart :
    shown (offering openState 0x2100A10000000000 [] (answersOf [0])) =
      vector .default "DCwdwc DCwc dCwc DCwc dCwc dCwc dCwc dCwc DCwc DCh?0chd" 1 := by
  decide +kernel

/-- V23, third row. -/
theorem test_engStartWait_second :
    shown (offering (retriesState 3 []) 0x2200A00000000000 [] (answersOf [1, 0])) =
      vector .default "dwc DCwc dCwc DCwc dCwc dCwc dCwc dCwc dCwc DCh?1chd dwCwDw
        dwc DCwc dCwc DCwc dCwc dCwc dCwc dCwc dCwc DCh?0chd" 1 := by
  decide +kernel

/-- V23, first row. -/
theorem test_engStartWait_fails :
    shown (offering (retriesState 1 []) 0x2200A00000000000 [] (answersOf [1])) =
      vector .default "dwc DCwc dCwc DCwc dCwc dCwc dCwc dCwc dCwc DCh?1chd dwCwDw" 0 := by
  decide +kernel

/-- V22, and R23: the flag stays. -/
theorem test_engStop :
    shown (offering openState 0x2300000000000000 [] []) = vector .default "dwCwDw" 0 ∧
      registers (offering openState 0x2300000000000000 [] []) = some (true, .noError, 0, 0) := by
  decide +kernel

/-- V20. -/
theorem test_engWrite_a5 :
    shown (offering openState 0x2400A50000000000 [] (answersOf [0])) =
      vector .default "DCwc dCwc DCwc dCwc dCwc DCwc dCwc DCwc DCh?0chd" 1 := by
  decide +kernel

/-- V20, and R23: no error is recorded. -/
theorem test_engWrite_nack :
    shown (offering openState 0x2400010000000000 [] (answersOf [1])) =
      vector .default "dCwc dCwc dCwc dCwc dCwc dCwc dCwc DCwc DCh?1chd" 0 ∧
      registers (offering openState 0x2400010000000000 [] (answersOf [1])) = some (true, .noError, 0, 0) := by
  decide +kernel

/-- V21, acknowledged. -/
theorem test_engRead_ack :
    shown (offering openState 0x2500000000000000 [] (answersOf [1, 1, 0, 1, 1, 1, 1, 0])) =
      vector .default "DwC?1c wC?1c wC?0c wC?1c wC?1c wC?1c wC?1c wC?0c dChchd" 0xDE := by
  decide +kernel

/-- V21, not acknowledged. -/
theorem test_engRead_nack :
    shown (offering openState 0x2580000000000000 [] (answersOf [1, 0, 0, 0, 0, 0, 0, 0])) =
      vector .default "DwC?1c wC?0c wC?0c wC?0c wC?0c wC?0c wC?0c wC?0c DChchd" 0x80 := by
  decide +kernel

/-- V10, with pull-up assist. -/
theorem test_pinRelease :
    shown (offering pullupState 0x3000000000000000 [] []) =
      some ([.maskInterrupts, .setPinMode .sda .inputPullup, .unmaskInterrupts], [0]) := by
  decide +kernel

/-- V10, with pull-up assist. -/
theorem test_pinDriveLow :
    shown (offering pullupState 0x3101000000000000 [] []) =
      some ([.maskInterrupts, .writeOutput .scl .low, .setPinMode .scl .output, .unmaskInterrupts], [0]) := by
  decide +kernel

/-- R101 corner case (a), R165. -/
theorem test_pinDriveLow_fault :
    faultOf (offering highState 0x3100000000000000 [] []) = some (.drivenHigh .sda) := by
  decide +kernel

/-- V10. -/
theorem test_pinRead :
    shown (offering State.reset 0x3200000000000000 [] (answersOf [1])) = some ([.readInput .sda .high], [1]) := by
  decide +kernel

/-- V61: an illegal packet is answered and shows nothing. -/
theorem test_illegal_step :
    shown (offering openState 0x0400030000000000 [1, 2] []) = some ([], [0x80000000]) := by
  decide +kernel

/-- The word of a table row is the first thing a block just reset runs. -/
theorem test_withFetchWord :
    shown (State.reset.withFetchWord 64 0x0900000000000000) = some ([], [0xFFFF]) := by
  decide +kernel

/-! ### Witnesses: the hypotheses of the statements are met -/

/-- The invariant, its two clauses over the pins told for each pin. -/
theorem inv_of_pads {s : State} (hc : s.cfg.wf = true) (hl : s.rxbuf.length = s.cfg.bufferCapacity.toNat)
    (h₁ : s.rxCursor ≤ s.rxValid) (h₂ : s.rxValid ≤ s.cfg.bufferCapacity)
    (h₃ : ∀ x ∈ [s.sda, s.scl], x.mode = .output → x.latch = .low)
    (h₄ : s.cfg.pullupAssist = false → ∀ x ∈ [s.sda, s.scl], x.latch = .low ∧ x.mode ≠ .inputPullup)
    (he : s.lastError ≠ .dataTooLong) (hi : s.irq.saved = none) (hr : s.sequencer = .ready) : s.Inv :=
  ⟨hc, hl, h₁, h₂, fun p => by cases p <;> exact h₃ _ (by simp [State.pad]),
    fun hp p => by cases p <;> exact (h₄ hp _ (by simp [State.pad])).1,
    fun hp p => by cases p <;> exact (h₄ hp _ (by simp [State.pad])).2, he, hi, hr⟩

/-- `PadActsOnItsLine`, `EveryStepKeepsTheInvariant`, `NoRunFaultsOrIsRefused`: at reset, with an open transmission, with pull-up assist and high
latches, with bytes to read. -/
theorem witness_Inv : State.reset.Inv ∧ openState.Inv ∧ pullupState.Inv ∧ filledState.Inv :=
  ⟨inv_of_pads (by decide) (by decide) (by decide) (by decide) (by decide) (by decide) (by decide) rfl rfl,
    inv_of_pads (by decide) (by decide) (by decide) (by decide) (by decide) (by decide) (by decide) rfl rfl,
    inv_of_pads (by decide) (by decide) (by decide) (by decide) (by decide) (by decide) (by decide) rfl rfl,
    inv_of_pads (by decide) (by decide) (by decide) (by decide) (by decide) (by decide) (by decide) rfl rfl⟩

/-- Drivable states: at rest, with an open transmission, and with pull-up assist over high latches. -/
theorem witness_drivable : State.reset.drivable ∧ openState.drivable ∧ pullupState.drivable := by decide

/-- `ResetPutsEveryElementAtItsValue`: parameters at both ends of their ranges; a reset offered to a ready block and to a
busy one. -/
theorem witness_ResetPutsEveryElementAtItsValue :
    Config.wf { Config.default with bufferCapacity := 1, startWaitRetries := 1 } = true ∧
      Config.wf { Config.default with bufferCapacity := 255, startWaitRetries := 65535 } = true ∧
      ({ openState with offered := [.reset] } : State).cfg.wf = true ∧
      ({ openState with offered := [.reset], sequencer := .busy } : State).offered = .reset :: [] := by decide

/-- `ParametersHaveTheirDefaultsAndRanges`: each way to be out of range. -/
theorem witness_ParametersHaveTheirDefaultsAndRanges :
    (State.resetWith { Config.default with bufferCapacity := 0 }).cfg.wf = false ∧
      (State.resetWith { Config.default with startWaitRetries := 0 }).cfg.wf = false ∧
      (State.resetWith { Config.default with sdaPin := 1 }).cfg.wf = false := by decide

/-- `StepRunsTheDecodedCommand`, `DecodeOfEncodeIsTheCommand`, `EncodeOfDecodeIsThePacket`: a legal packet offered. -/
theorem witness_StepRunsTheDecodedCommand :
    let s := offering openState 0x0400020000000000 [0xCA, 0xFE] []
    s.cfg.wf = true ∧ s.sequencer = .ready ∧ s.offered = .packet ⟨0x0400020000000000, [0xCA, 0xFE]⟩ :: [] ∧
      decode ⟨0x0400020000000000, [0xCA, 0xFE]⟩ = .ok (.writeBytes 2 [0xCA, 0xFE]) := by decide

/-- `DecodeOfEncodeIsTheCommand`, `WrittenOperandsAssembleToTheCommand`: well-formed commands, with the longest payload and with none. -/
theorem witness_DecodeOfEncodeIsTheCommand :
    Instr.wellFormed (.writeBytes 255 (List.replicate 255 7)) = true ∧ Instr.wellFormed (.writeBytes 0 []) = true ∧
      Instr.wellFormed (.requestFrom 0x7F 255 0xFFFFFFFF 255 true) = true := by
  refine ⟨?_, by decide, by decide⟩
  change ((List.replicate 255 (7 : Byte)).length == 255) = true
  rw [List.length_replicate]
  rfl

/-- `PacketIsIllegalExactlyInTheThreeCases`: the ends of every gap of the opcode map, and their legal neighbours. -/
theorem witness_PacketIsIllegalExactlyInTheThreeCases :
    ([0x00, 0x0B, 0x1F, 0x26, 0x2F, 0x33, 0xFF].all (fun c => (Opcode.ofCode c).isNone)) = true ∧
      ([0x01, 0x0A, 0x20, 0x25, 0x30, 0x32].all (fun c => (Opcode.ofCode c).isSome)) = true ∧
      (offering openState 0x0100000000000001 [] []).offered = .packet ⟨0x0100000000000001, []⟩ :: [] ∧
      decode ⟨0x0100000000000001, []⟩ = .error .reservedBit := by decide

/-- `EveryPacketHasOneResponse`, `StepOnlyAddsToThePast`: a legal packet and an illegal one that a step answers. -/
theorem witness_EveryPacketHasOneResponse :
    (∃ t, step (offering State.reset 0x0A00000000000000 [] []) = .next t) ∧
      ∃ t, step (offering State.reset 0x0000000000000000 [] []) = .next t := ⟨⟨_, rfl⟩, ⟨_, rfl⟩⟩

/-- `BlockWaitsAndAcceptsNothingWhileBusy`: nothing offered, and a busy block. -/
theorem witness_BlockWaitsAndAcceptsNothingWhileBusy :
    State.reset.offered = [] ∧ State.reset.sequencer = .ready ∧
      ({ offering State.reset 0x0A00000000000000 [] [] with sequencer := .busy } : State).sequencer = .busy := by decide

/-- `AssembledCommandIsWellFormed`. -/
theorem witness_AssembledCommandIsWellFormed :
    assemble .writeBytes [.num 1, .num 255] = some (.writeBytes 1 [0xFF]) ∧
      assemble .requestFrom [.num 127, .num 255] = some (.requestFrom 0x7F 255 0 0 true) := by decide

/-- `PinReleaseReleasesItsPin`, `PinDriveLowDrivesItsPin`: each clause, the fault's too. -/
theorem witness_pins :
    State.reset.cfg.pullupAssist = false ∧ Pin.scl ≠ Pin.sda ∧ (State.reset.pad .sda).latch = .low ∧
      pullupState.cfg.pullupAssist = true ∧
      highState.cfg.pullupAssist = false ∧ (highState.pad .sda).latch = .high := by decide

/-- `PinReadAnswersTheEnvironment`: an answer listed next, and the last one listed after reads that took the others. -/
theorem witness_PinReadAnswersTheEnvironment :
    (retriesState 1 (answersOf [1, 0])).answers[(retriesState 1 (answersOf [1, 0])).reads]? = some .high ∧
      ({ retriesState 1 (answersOf [1, 1, 0]) with reads := 1 } : State).answers[1 + 1]? = some .low := by decide

/-- V45's two bytes: the accidental START of a Write from `IDLE` depends on bit 7 alone. -/
theorem test_write_from_idle :
    conditions State.reset.lines (expand .default (writeLetters 0x7F .high)) = [.start] ∧
      conditions State.reset.lines (expand .default (writeLetters 0x80 .high)) = [] := by decide

/-- D16: half of an odd delay is rounded down. -/
theorem test_half_delay : halfDelayUs { Config.default with delayUs := 7 } = 3 := by decide

/-- `CommandsFaultOnlyForAHighLatch`: a command that faults. -/
theorem witness_CommandsFaultOnlyForAHighLatch : exec (.pinDriveLow .sda) highState = .fault (.drivenHigh .sda) :=
  rfl

/-- `ModeSwitchesAreWindowed`, `EveryCommandKeepsTheWorld`, `OnlyTheControllerWritesTheTransactionState`,
`OnlyRequestFromFillsTheBuffer`: a command with pin activity and one without, neither of the controller. -/
theorem witness_exec_next : (∃ t, exec .engStop State.reset = .next t) ∧ (∃ t, exec .read filledState = .next t) ∧
    isController .engStop = false ∧ (∀ a q i z sendStop, Instr.engStop ≠ .requestFrom a q i z sendStop) :=
  ⟨exec_completes _ (by decide), exec_completes _ (by decide), rfl, by simp⟩

/-- `EngStartWaitRetriesUpToItsBound`: acknowledged at once, acknowledged at the last attempt, never acknowledged with one
attempt and with two. -/
theorem witness_EngStartWaitRetriesUpToItsBound :
    ((retriesState 1 (answersOf [0])).drivable ∧ (retriesState 1 (answersOf [0])).answer 0 = .low) ∧
      ((retriesState 2 (answersOf [1, 0])).answer 0 = .high ∧ (retriesState 2 (answersOf [1, 0])).answer 1 = .low) ∧
      (retriesState 1 (answersOf [1])).answer 0 = .high ∧
      (∀ j, j < 2 → (retriesState 2 (answersOf [1, 1])).answer j = .high) := by decide

/-- `ProceduresMakeTheirConditions`, `RequestFromMakesItsFrame`, `RequestWithoutStopLeavesTheFlagClear`: `IDLE` and `HELD`
states, and one outside a transmission. Also every statement whose one hypothesis is `drivable`:
`InitializeChecksBothLines`, `EngStartSendsTheAddress`, `EngRepStartReleasesThenStarts`, `EngStopReleasesTheBus`,
`EngWriteShiftsTheByteOut`, `EngReadShiftsTheByteIn`, `BeginTransmissionOpensAndRecords`,
`WriteSendsAndRecordsTheFirstError`, `EndTransmissionDeliversTheError`. -/
theorem witness_pin_states :
    State.reset.idle ∧ openState.held ∧ State.reset.inTransmission = false ∧ State.reset.drivable := by decide

/-- `WriteBytesSendsAllAndCounts`, `WriteBytesIsAWriteAndTheRest`: no byte, some bytes, and the longest rest. -/
theorem witness_WriteBytes :
    ([] : List Byte).length = (0 : BitVec 8).toNat ∧ ([1, 2, 3] : List Byte).length = (3 : BitVec 8).toNat ∧
      (3 : BitVec 8) ≠ 0 ∧ (List.replicate 254 (0 : Byte)).length < 255 := by
  refine ⟨by decide, by decide, by decide, ?_⟩
  rw [List.length_replicate]
  decide

/-- `RequestFromReadsIntoTheBuffer`: an entry that is written, the last one, and the first one that is not. -/
theorem witness_RequestFromReadsIntoTheBuffer :
    State.reset.rxbuf.length = 32 ∧ min (255 : BitVec 8).toNat State.reset.cfg.bufferCapacity.toNat = 32 ∧
      31 < min (255 : BitVec 8).toNat State.reset.cfg.bufferCapacity.toNat ∧
      min (2 : BitVec 8).toNat State.reset.cfg.bufferCapacity.toNat ≤ 2 := by decide

/-- `ControllerTraceIsIndependentOfTheAnswers`, `ControllerKeepsTheFlagInStepWithThePins`: controller commands a caller may
issue, outside a transmission and inside one. -/
theorem witness_controller :
    isController (.write 1) = true ∧ Instr.wellFormed (.write 1) = true ∧ callerMayIssue (.write 1) openState ∧
      openState.flagMatchesPins ∧ State.reset.flagMatchesPins ∧
      callerMayIssue (.requestFrom 0x50 1 0 0 true) State.reset ∧ callerMayIssue (.requestFrom 0x50 1 5 1 false) State.reset ∧
      callerMayIssue (.requestFrom 0x50 1 0 0 false) openState ∧
      ∃ t, exec (.write 1) openState = .next t :=
  ⟨rfl, rfl, rfl, by decide, by decide, .inr (.inl rfl), .inl (by decide), .inr (.inr rfl), exec_completes _ (by decide)⟩

/-- `AvailableCountsUnreadBytes`, `ReadTakesTheByteAtTheCursor`, `PeekShowsTheByteAtTheCursor`: an empty buffer, and the last
byte of a filled one. -/
theorem witness_stream :
    State.reset.rxValid ≤ State.reset.rxCursor ∧ State.reset.rxCursor ≤ State.reset.rxValid ∧
      filledState.rxCursor < filledState.rxValid ∧ filledState.rxbuf[filledState.rxCursor.toNat]? = some 0xFF ∧
      isStream .read = true := by decide

/-- `UnreadBufferIsNeverObserved`: two states that differ in an entry at `rx_valid`. -/
theorem witness_UnreadBufferIsNeverObserved :
    filledState.Inv ∧
      SameVisible filledState { filledState with rxbuf := [0x12, 0xFF, 0x77] ++ List.replicate 29 0 } :=
  ⟨witness_Inv.2.2.2, ⟨rfl, by decide, by decide⟩⟩

end Sys2Proof.Tests
end

/-! PROOFS. The family 00_scope.md: parameters, assembled operands, what a pad does to its line. -/

namespace Sys2Proof.Machine

/-! ### Parameters (R7, R8, R10) -/

/-- A parameter's lower end 1 is that it is not 0. -/
theorem ne_zero_iff_one_le_toNat {n : Nat} (x : BitVec n) : x ≠ 0 ↔ 1 ≤ x.toNat := by
  rw [Nat.one_le_iff_ne_zero, BitVec.ofNat_eq_ofNat, BitVec.toNat_ne, BitVec.toNat_zero]

theorem config_wf_iff (c : Config) :
    c.wf = true ↔ 1 ≤ c.bufferCapacity.toNat ∧ 1 ≤ c.startWaitRetries.toNat ∧ c.sdaPin ≠ c.sclPin := by
  simp only [Config.wf, Bool.and_eq_true, bne_iff_ne, and_assoc, ne_zero_iff_one_le_toNat]

/-- The step of an instance whose parameters are out of range (U7, U8; log 11), beside `step_wait`, `step_reset`,
`step_packet` and `step_busy`. -/
theorem step_configOutsideSpec {s : State} (hw : s.cfg.wf = false) : step s = .refused .configOutsideSpec := by
  rw [step, hw, if_neg Bool.false_ne_true]

/-- Settles O2: the defaults are read off, the ranges are `config_wf_iff`, the refusal `step_configOutsideSpec`. -/
theorem parametersHaveTheirDefaultsAndRanges : Obligations.ParametersHaveTheirDefaultsAndRanges :=
  ⟨⟨rfl, rfl, rfl, rfl⟩, config_wf_iff, fun _ => step_configOutsideSpec⟩

/-! ### Operands (R9, R61, R86, R87) -/

/-- The address byte is the address shifted up by one, plus the read/write bit (R86). -/
theorem addrByte_toNat (a : BitVec 7) (rw : BitVec 1) : (addrByte a rw).toNat = 2 * a.toNat + rw.toNat := by
  rw [addrByte, BitVec.toNat_append, ← Nat.shiftLeft_add_eq_or_of_lt rw.isLt, Nat.shiftLeft_eq, Nat.mul_comm, pow_one]

theorem halfDelayUs_toNat (c : Config) : (halfDelayUs c).toNat = c.delayUs.toNat / 2 := by
  rw [halfDelayUs, BitVec.toNat_ushiftRight, Nat.shiftRight_one]

@[simp] theorem internalAddressBytes_zero (i : BitVec 32) : internalAddressBytes i 0 = [] := rfl

/-- Settles O10: each clause is the value of one assembling function; the internal address is sent byte by byte from
the top (`internalAddressBytes_succ`). -/
theorem operandsAreAssembled : Obligations.OperandsAreAssembled :=
  ⟨fun a => ⟨addrByte_toNat a rwWrite, addrByte_toNat a rwRead⟩, halfDelayUs_toNat, clampSize_toNat,
    clampQuantity_toNat, fun i => by
      simp only [internalAddressBytes_succ, internalAddressBytes_zero, internalByte, and_self]⟩

/-! ### Pads and lines (R17, R33, R55) -/

/-- A pad pulls its line low exactly when it is an output with a `LOW` latch (R33). -/
theorem drive_eq_pullsLow (x : Pad) : x.drive = .pullsLow ↔ x = { mode := .output, latch := .low } := by
  obtain ⟨m, l⟩ := x
  cases m <;> cases l <;> simp

/-- A pad floats or pulls up exactly when it is no output (R17, R33). -/
theorem drive_floats_or_pullsUp (x : Pad) : x.drive = .floats ∨ x.drive = .pullsUp ↔ x.mode ≠ .output := by
  obtain ⟨m, l⟩ := x
  cases m <;> cases l <;> simp

/-- A condition on every pad is the condition on the data pad and on the clock pad. -/
theorem forall_pad (s : State) (P : Pad → Prop) : (∀ p, P (s.pad p)) ↔ P s.sda ∧ P s.scl :=
  ⟨fun h => ⟨h .sda, h .scl⟩, fun h p => by
    cases p with
    | sda => exact h.1
    | scl => exact h.2⟩

theorem held_iff_drive (s : State) : s.held ↔ ∀ p, (s.pad p).drive = .pullsLow := by
  rw [forall_pad s (·.drive = .pullsLow), drive_eq_pullsLow, drive_eq_pullsLow]

theorem idle_iff_drive (s : State) : s.idle ↔ ∀ p, (s.pad p).drive = .floats ∨ (s.pad p).drive = .pullsUp := by
  rw [forall_pad s (fun x => x.drive = .floats ∨ x.drive = .pullsUp), drive_floats_or_pullsUp, drive_floats_or_pullsUp]

/-- Under the invariant an output's latch is `LOW`, so no pad drives its line high (R33). -/
theorem inv_drive_ne_drivesHigh {s : State} (h : s.Inv) (p : Pin) : (s.pad p).drive ≠ .drivesHigh := by
  rw [Ne, drive_eq_drivesHigh]
  rintro ⟨hm, hl⟩
  rw [h.drivesLow p hm] at hl
  cases hl

/-- Settles O50: the tables of R33 and R55 are read off, the invariant keeps `drivesHigh` away, and `HELD` and `IDLE` are
pad by pad what the pads do. -/
theorem padActsOnItsLine : Obligations.PadActsOnItsLine :=
  ⟨fun l => ⟨drive_input l, drive_inputPullup l⟩, drive_output_low, drive_output_high,
    fun _ _ => ⟨rfl, rfl, rfl⟩, fun _ => inv_drive_ne_drivesHigh, fun s => ⟨held_iff_drive s, idle_iff_drive s⟩⟩

end Sys2Proof.Machine

/-! PROOFS. The family 10_state.md: the command port, what a command adds and keeps, the invariant, and that unread buffer
bytes are never observed. -/

namespace Sys2Proof.Machine

/-! ### The command port (R36, R75, R79, R163) -/

theorem runPacket_legal {p : Packet} {i : Instr} (h : decode p = .ok i) (s : State) : runPacket p s = exec i s := by
  rw [runPacket, h]

theorem runPacket_illegal {p : Packet} {e : Illegal} (h : decode p = .error e) (s : State) :
    runPacket p s = .next s.raiseIllegal := by
  rw [runPacket, h]

/-- Inversion: an accepted packet that is answered was a command's, or was answered ILLEGAL. -/
theorem runPacket_next {p : Packet} {s t : State} (h : runPacket p s = .next t) :
    (∃ i, exec i s = .next t) ∨ t = s.raiseIllegal := by
  cases hp : decode p with
  | ok i => exact .inl ⟨i, (runPacket_legal hp s).symm.trans h⟩
  | error e =>
    rw [runPacket_illegal hp] at h
    cases h
    exact .inr rfl

/-- Settles O3: the step runs the packet, and the packet is its command's. -/
theorem stepRunsTheDecodedCommand : Obligations.StepRunsTheDecodedCommand :=
  fun _ _ _ _ hw hr ho hi => (step_packet hw hr ho).trans (runPacket_legal hi _)

/-! ### What every command keeps (R34, R39) and only adds to (R66) -/

/-- Settles O16: `exec_fault` and `exec_not_refused`. -/
theorem commandsFaultOnlyForAHighLatch : Obligations.CommandsFaultOnlyForAHighLatch :=
  fun i s => ⟨fun _ h => exec_fault h, exec_not_refused i s⟩

theorem played_keptWorld {s t : State} (h : Played s t) : KeptWorld s t := by
  obtain ⟨ls, ht⟩ := h
  rw [ht]
  exact ⟨play_cfg s ls, play_offered s ls, play_answers s ls, play_masked s ls, play_noWindow ls⟩

theorem keptWorld_deliver {s t : State} (h : KeptWorld s t) (r : Response) : KeptWorld s (t.deliver r) :=
  ⟨h.cfg, h.offered, h.answers, h.masked, h.noWindow⟩

/-- Settles O18: a compact trace keeps the world, and so does the response. -/
theorem everyCommandKeepsTheWorld : Obligations.EveryCommandKeepsTheWorld := by
  intro i s t h
  obtain ⟨v, u, hp, rfl⟩ := exec_played h
  exact keptWorld_deliver (played_keptWorld hp) _

/-- From `s` to `t` nothing is taken back: the past grows, the parameters and the environment's answers stay. -/
structure AddsToPast (s t : State) : Prop where
  trace : s.trace <+: t.trace
  responses : s.responses <+: t.responses
  reads : s.reads ≤ t.reads
  cfg : t.cfg = s.cfg
  answers : t.answers = s.answers

theorem addsToPast_refl (s : State) : AddsToPast s s :=
  ⟨List.prefix_rfl, List.prefix_rfl, le_rfl, rfl, rfl⟩

theorem addsToPast_played {s t : State} (h : Played s t) : AddsToPast s t := by
  obtain ⟨ls, ht⟩ := h
  rw [ht]
  exact ⟨⟨expand s.cfg ls, (play_trace s ls).symm⟩, by rw [play_responses],
    (Nat.le_add_right _ _).trans_eq (play_reads s ls).symm, play_cfg s ls, play_answers s ls⟩

theorem addsToPast_deliver {s t : State} (h : AddsToPast s t) (r : Response) : AddsToPast s (t.deliver r) :=
  ⟨h.trace, h.responses.trans (List.prefix_append _ _), h.reads, h.cfg, h.answers⟩

theorem addsToPast_exec {i : Instr} {s t : State} (h : exec i s = .next t) : AddsToPast s t := by
  obtain ⟨v, u, hp, rfl⟩ := exec_played h
  exact addsToPast_deliver (addsToPast_played hp) _

/-- Acceptance touches the port and the sequencer only, so what adds to the past of the accepting state adds to `s`'s. -/
theorem addsToPast_of_accept {s t : State} {rest : List HostInput} (h : AddsToPast (s.accept rest) t) : AddsToPast s t :=
  ⟨h.trace, h.responses, h.reads, h.cfg, h.answers⟩

/-- A reset event keeps the past whole (R185). -/
theorem addsToPast_resetBlock (s : State) (rest : List HostInput) : AddsToPast s (s.resetBlock rest) :=
  ⟨List.prefix_rfl, List.prefix_rfl, le_rfl, rfl, rfl⟩

theorem addsToPast_step {s t : State} (h : step s = .next t) : AddsToPast s t := by
  obtain ⟨-, rfl | ⟨rest, -, rfl⟩ | ⟨p, rest, -, -, hp⟩⟩ := step_cases h
  · exact addsToPast_refl _
  · exact addsToPast_resetBlock s rest
  · refine addsToPast_of_accept (rest := rest) ?_
    obtain ⟨i, hi⟩ | rfl := runPacket_next hp
    · exact addsToPast_exec hi
    · exact addsToPast_deliver (addsToPast_refl _) _

/-- Settles O49: each of the four ways to step only adds to the past. -/
theorem stepOnlyAddsToThePast : Obligations.StepOnlyAddsToThePast := by
  intro s t h
  obtain ⟨ht, hr, hn, hc, ha⟩ := addsToPast_step h
  exact ⟨ht, hr, hn, hc, ha⟩

/-! ### What the commands but REQUEST_FROM write (R23, R27) -/

section Preserves

variable {β : Type} {f : State → β}
variable (hplay : ∀ s ls, f (State.play s ls) = f s)
variable (htrans : ∀ s b, f (State.setInTransmission s b) = f s) (herr : ∀ s e, f (State.setLastError s e) = f s)
include hplay herr

theorem preserves_ctrlWrite (b : Byte) : Preserves f (ctrlWrite b) :=
  preserves_bind (preserves_writeByte hplay b) fun _ =>
    preserves_bind (preserves_modify fun s => herr s _) fun _ => preserves_pure _

theorem preserves_writeAll (bs : List Byte) (n : BitVec 8) : Preserves f (writeAll bs n) := by
  induction bs generalizing n with
  | nil => exact preserves_pure _
  | cons b bs ih => exact preserves_bind (preserves_ctrlWrite hplay herr b) fun _ => ih _

include htrans

theorem preserves_beginTransmission (a : BitVec 7) : Preserves f (beginTransmission a) :=
  preserves_bind (preserves_openPhase hplay _) fun _ =>
    preserves_bind (preserves_modify fun s => htrans s _) fun _ => preserves_modify fun s => herr s _

theorem preserves_endTransmission (sendStop : Bool) : Preserves f (endTransmission sendStop) := by
  have clear : ∀ e : Err, Preserves f (do modify fun s => s.setLastError .noError; return e : Run Err) := fun _ =>
    preserves_bind (preserves_modify fun s => herr s _) fun _ => preserves_pure _
  exact preserves_bind preserves_get fun _ => preserves_ite
    (preserves_bind (preserves_stop hplay) fun _ =>
      preserves_bind (preserves_modify fun s => htrans s _) fun _ => clear _)
    (clear _)

end Preserves

theorem preserves_streamRead {β : Type} {f : State → β} (hcursor : ∀ s c, f (State.setRxCursor s c) = f s) :
    Preserves f streamRead := fun s _ _ h => by
  rw [streamRead_run] at h
  split at h <;> cases h
  · rfl
  · exact hcursor s _

theorem preserves_streamPeek {β : Type} {f : State → β} : Preserves f streamPeek := fun s _ _ h => by
  rw [streamPeek_run] at h
  split at h <;> cases h <;> rfl

theorem preserves_result {α β : Type} {f : State → β} {x : Run α} (v : α → Value) (hx : Preserves f x) :
    Preserves f (do let r ← x; return v r) := preserves_bind hx fun _ => preserves_pure _

/-- A command but `REQUEST_FROM` leaves every observation of the state that no compact trace moves, that the cursor does
not move if the command is `READ`, and that the Transaction State does not move if it is a controller command. -/
theorem preserves_body {β : Type} {f : State → β} {i : Instr} (hplay : ∀ s ls, f (State.play s ls) = f s)
    (hreq : ∀ a q ia z sendStop, i ≠ .requestFrom a q ia z sendStop)
    (hcursor : i = .read → ∀ s c, f (State.setRxCursor s c) = f s)
    (htrans : isController i = true → ∀ s b, f (State.setInTransmission s b) = f s)
    (herr : isController i = true → ∀ s e, f (State.setLastError s e) = f s) : Preserves f (body i) := by
  cases i with
  | initializeBus => exact preserves_result boolValue (preserves_initBus hplay)
  | beginTransmission a =>
    exact preserves_result (fun _ => noValue) (preserves_beginTransmission hplay (htrans rfl) (herr rfl) a)
  | write b => exact preserves_result byteValue (preserves_ctrlWrite hplay (herr rfl) b)
  | writeBytes count payload => exact preserves_result byteValue (preserves_writeAll hplay (herr rfl) _ 0)
  | endTransmission x => exact preserves_result errValue (preserves_endTransmission hplay (htrans rfl) (herr rfl) x)
  | requestFrom a q ia z x => exact absurd rfl (hreq a q ia z x)
  | available => exact preserves_bind preserves_get fun _ => preserves_pure _
  | read => exact preserves_streamRead (hcursor rfl)
  | peek => exact preserves_streamPeek
  | flush => exact preserves_pure _
  | engStart b => exact preserves_result boolValue (preserves_start hplay b)
  | engRepStart b => exact preserves_result boolValue (preserves_repStart hplay b)
  | engStartWait b => exact preserves_result boolValue (preserves_startWait hplay b)
  | engStop => exact preserves_result (fun _ => noValue) (preserves_stop hplay)
  | engWrite b => exact preserves_result boolValue (preserves_writeByte hplay b)
  | engRead x => exact preserves_result byteValue (preserves_readByte hplay x)
  | pinRelease p => exact preserves_result (fun _ => noValue) (preserves_release hplay p)
  | pinDriveLow p => exact preserves_result (fun _ => noValue) (preserves_driveLow hplay p)
  | pinRead p => exact preserves_result levelValue (preserves_readPin hplay p)

/-- Settles O46: below the controller nothing moves the two elements. -/
theorem onlyTheControllerWritesTheTransactionState : Obligations.OnlyTheControllerWritesTheTransactionState := by
  intro i s t hi h
  obtain ⟨v, u, hb, rfl⟩ := exec_next h
  have hreq : ∀ a q ia z x, i ≠ .requestFrom a q ia z x := by
    rintro a q ia z x rfl
    cases hi
  have hn : ¬isController i = true := by
    rw [hi]
    exact Bool.false_ne_true
  exact ⟨preserves_body (f := State.inTransmission) play_inTransmission hreq (fun _ _ _ => rfl) (absurd · hn)
      (absurd · hn) s v u hb,
    preserves_body (f := State.lastError) play_lastError hreq (fun _ _ _ => rfl) (absurd · hn) (absurd · hn) s v u hb⟩

/-- Settles O47: only `REQUEST_FROM` stores a byte or sets the valid length, and only `READ` besides it sets the cursor. -/
theorem onlyRequestFromFillsTheBuffer : Obligations.OnlyRequestFromFillsTheBuffer := by
  intro i s t h hreq
  obtain ⟨v, u, hb, rfl⟩ := exec_next h
  exact ⟨preserves_body (f := State.rxbuf) play_rxbuf hreq (fun _ _ _ => rfl) (fun _ _ _ => rfl) (fun _ _ _ => rfl)
      s v u hb,
    preserves_body (f := State.rxValid) play_rxValid hreq (fun _ _ _ => rfl) (fun _ _ _ => rfl) (fun _ _ _ => rfl)
      s v u hb,
    fun hr => preserves_body (f := State.rxCursor) play_rxCursor hreq (absurd · hr) (fun _ _ _ => rfl) (fun _ _ _ => rfl)
      s v u hb⟩

/-! ### The invariant after reset (R22, R26, R33, R40) -/

theorem inv_resetWith {c : Config} (hw : c.wf = true) : (State.resetWith c).Inv where
  parameters := hw
  capacity := List.length_replicate
  cursor := BitVec.le_refl 0
  valid := BitVec.le_def.mpr (Nat.zero_le _)
  drivesLow p _ := by cases p <;> rfl
  latchLow _ p := by cases p <;> rfl
  noPullup _ p := by cases p <;> exact PinMode.noConfusion
  errorCode := Err.noConfusion
  noWindow := rfl
  ready := rfl

/-- Settles O42: the default parameters are legal. -/
theorem resetMeetsTheInvariant : Obligations.ResetMeetsTheInvariant :=
  ⟨inv_resetWith (by decide), fun _ => inv_resetWith⟩

/-- A reset event leaves the interrupt mask alone, which the invariant says has no window open. -/
theorem inv_resetBlock {s : State} (h : s.Inv) (rest : List HostInput) : (s.resetBlock rest).Inv :=
  { inv_resetWith h.parameters with noWindow := h.noWindow }

/-! ### `last_error` and the Receive Buffer through a command (R22, R26) -/

theorem addressError_ne_dataTooLong (ack : Level) : addressError ack ≠ .dataTooLong := by
  cases ack <;> decide

theorem writeError_ne_dataTooLong {e : Err} (h : e ≠ .dataTooLong) (ack : Level) : writeError e ack ≠ .dataTooLong := by
  cases ack with
  | low => exact h
  | high =>
    cases e with
    | dataTooLong => exact h
    | noError => decide
    | nackOnAddress => decide
    | nackOnData => decide

theorem errorAfterWrites_ne_dataTooLong {e : Err} (h : e ≠ .dataTooLong) (n : Nat) (ack : Nat → Level) :
    errorAfterWrites e n ack ≠ .dataTooLong := by
  unfold errorAfterWrites
  split
  · exact Err.noConfusion
  · exact h

/-- Where a command's procedure answers, its command leaves that procedure's state. -/
theorem state_of_body {α : Type} {x : Run α} {v : α → Value} {s t u : State} {a : α} {w : Value}
    (hx : x s = .ok (a, t)) (hb : (do let r ← x; return v r : Run Value) s = .ok (w, u)) : u = t := by
  rw [body_of_run hx] at hb
  cases hb
  rfl

theorem lastError_of_controller {i : Instr} {s u : State} {v : Value} (hi : isController i = true) (hd : s.drivable)
    (he : s.lastError ≠ .dataTooLong) (hb : body i s = .ok (v, u)) : u.lastError ≠ .dataTooLong := by
  cases i with
  | beginTransmission a =>
    rw [state_of_body (beginTransmission_run a hd) hb]
    exact addressError_ne_dataTooLong _
  | write b =>
    rw [state_of_body (ctrlWrite_run b hd) hb]
    exact writeError_ne_dataTooLong he _
  | writeBytes count payload =>
    rw [state_of_body (writeAll_run _ 0 hd) hb]
    exact errorAfterWrites_ne_dataTooLong he _ _
  | endTransmission x =>
    rw [state_of_body (endTransmission_run x hd) hb]
    exact Err.noConfusion
  | requestFrom a q ia z x =>
    rw [state_of_body (requestFrom_run a q ia z x hd) hb]
    exact addressError_ne_dataTooLong _
  | _ => cases hi

/-- `DATA_TOO_LONG` is written by no command (R22, U2). -/
theorem exec_lastError_ne_dataTooLong {i : Instr} {s t : State} (hd : s.drivable) (he : s.lastError ≠ .dataTooLong)
    (h : exec i s = .next t) : t.lastError ≠ .dataTooLong := by
  cases hi : isController i with
  | false =>
    rw [(onlyTheControllerWritesTheTransactionState i s t hi h).lastError]
    exact he
  | true =>
    obtain ⟨v, u, hb, rfl⟩ := exec_next h
    exact lastError_of_controller (u := u) hi hd he hb

/-- The part of the invariant that speaks of the Receive Buffer (R24, R26). -/
structure BufferInv (s : State) : Prop where
  capacity : s.rxbuf.length = s.cfg.bufferCapacity.toNat
  cursor : s.rxCursor ≤ s.rxValid
  valid : s.rxValid ≤ s.cfg.bufferCapacity

theorem clampQuantity_le (c : Config) (q : BitVec 8) : clampQuantity c q ≤ c.bufferCapacity := by
  rw [BitVec.le_def, clampQuantity_toNat]
  exact Nat.min_le_right _ _

theorem bufferInv_requestFrom {a : BitVec 7} {q : BitVec 8} {ia : BitVec 32} {z : BitVec 8} {x : Bool} {s t : State}
    (hd : s.drivable) (hs : BufferInv s) (h : exec (.requestFrom a q ia z x) s = .next t) : BufferInv t := by
  obtain ⟨v, u, hb, rfl⟩ := exec_next h
  have hcfg := (everyCommandKeepsTheWorld _ _ _ h).cfg
  rw [state_of_body (requestFrom_run a q ia z x hd) hb] at hcfg ⊢
  refine ⟨?_, BitVec.le_def.mpr (Nat.zero_le _), ?_⟩
  · rw [hcfg, ← hs.capacity]
    exact storedBytes_length _ _ _ _
  · rw [hcfg]
    simp only [State.deliver_rxValid, State.setRxCursor_rxValid, State.setRxValid_rxValid]
    split
    · exact clampQuantity_le _ _
    · exact BitVec.le_def.mpr (Nat.zero_le _)

/-- `READ` moves the cursor only from below `rx_valid` (R151). -/
theorem read_cursor_le {s t : State} (hs : s.rxCursor ≤ s.rxValid) (h : exec .read s = .next t) :
    t.rxCursor ≤ s.rxValid := by
  obtain ⟨v, u, hb, rfl⟩ := exec_next h
  rw [body, streamRead_run] at hb
  split at hb <;> cases hb
  · exact hs
  · next hlt =>
    simp only [State.deliver_rxCursor, State.setRxCursor_rxCursor]
    bv_omega

/-- Every command keeps the buffer's length and bounds: `REQUEST_FROM` clamps, `READ` stops at the end, and the others
leave them. -/
theorem bufferInv_exec {i : Instr} {s t : State} (hd : s.drivable) (hs : BufferInv s) (h : exec i s = .next t) :
    BufferInv t := by
  by_cases hreq : ∀ a q ia z x, i ≠ .requestFrom a q ia z x
  · obtain ⟨hbuf, hvalid, hcursor⟩ := onlyRequestFromFillsTheBuffer i s t h hreq
    have hcfg := (everyCommandKeepsTheWorld i s t h).cfg
    refine ⟨by rw [hbuf, hcfg]; exact hs.capacity, ?_, by rw [hvalid, hcfg]; exact hs.valid⟩
    rw [hvalid]
    by_cases hr : i = .read
    · subst hr
      exact read_cursor_le hs.cursor h
    · rw [hcursor hr]
      exact hs.cursor
  · push Not at hreq
    obtain ⟨a, q, ia, z, x, rfl⟩ := hreq
    exact bufferInv_requestFrom hd hs h

/-! ### The invariant through a step -/

theorem drivable_of_inv {s : State} (h : s.Inv) : s.drivable := drivable_of_latches h.latchLow

@[simp] theorem drivable_accept (s : State) (rest : List HostInput) : (s.accept rest).drivable ↔ s.drivable :=
  Iff.rfl

theorem play_accept (s : State) (rest : List HostInput) (ls : List Letter) :
    (s.accept rest).play ls = (s.play ls).accept rest :=
  (play_setSequencer { s with offered := rest } .busy ls).trans
    (congrArg (fun u : State => { u with sequencer := .busy }) (play_setOffered s rest ls))

/-- A command of an accepted packet keeps the invariant: its compact trace does (`inv_play`), and it keeps the error code
and the buffer within bounds. -/
theorem inv_exec {i : Instr} {s t : State} {rest : List HostInput} (h : s.Inv)
    (hx : exec i (s.accept rest) = .next t) : t.Inv := by
  have hd : (s.accept rest).drivable := (drivable_accept s rest).mpr (drivable_of_inv h)
  obtain ⟨hcap, hcur, hval⟩ := bufferInv_exec hd ⟨h.capacity, h.cursor, h.valid⟩ hx
  have herr := exec_lastError_ne_dataTooLong hd h.errorCode hx
  obtain ⟨v, u, ⟨ls, hu⟩, rfl⟩ := exec_played hx
  have hplay := inv_play ls h
  rw [play_accept] at hu
  have hc : u.cfg = (s.play ls).cfg := by rw [hu]; rfl
  have hp : ∀ p, u.pad p = (s.play ls).pad p := by
    rw [hu]
    intro p
    cases p <;> rfl
  have hi : u.irq = (s.play ls).irq := by rw [hu]; rfl
  exact {
    parameters := hc ▸ hplay.parameters
    capacity := hcap
    cursor := hcur
    valid := hval
    drivesLow p := hp p ▸ hplay.drivesLow p
    latchLow ha p := hp p ▸ hplay.latchLow (hc ▸ ha) p
    noPullup ha p := hp p ▸ hplay.noPullup (hc ▸ ha) p
    errorCode := herr
    noWindow := hi ▸ hplay.noWindow
    ready := rfl }

/-- The ILLEGAL response leaves the registers and the pads as they were (R163). -/
theorem inv_raiseIllegal {s : State} (h : s.Inv) (rest : List HostInput) : (s.accept rest).raiseIllegal.Inv :=
  { h with ready := rfl }

/-- Settles O43: waiting, a reset event, a command and an ILLEGAL response each keep the invariant. -/
theorem everyStepKeepsTheInvariant : Obligations.EveryStepKeepsTheInvariant := by
  intro s t h hs
  obtain ⟨-, rfl | ⟨rest, -, rfl⟩ | ⟨p, rest, -, -, hp⟩⟩ := step_cases hs
  · exact h
  · exact inv_resetBlock h rest
  · obtain ⟨i, hi⟩ | rfl := runPacket_next hp
    · exact inv_exec h hi
    · exact inv_raiseIllegal h rest

/-- From a drivable state an accepted packet is answered, legal or not. -/
theorem runPacket_completes (p : Packet) {s : State} (h : s.drivable) : ∃ t, runPacket p s = .next t := by
  cases hp : decode p with
  | ok i =>
    rw [runPacket_legal hp]
    exact exec_completes i h
  | error e => exact ⟨_, runPacket_illegal hp s⟩

/-- Settles O44: a block of the invariant waits, is reset, or answers a packet, for no latch of it is high. -/
theorem noRunFaultsOrIsRefused : Obligations.NoRunFaultsOrIsRefused := by
  intro s h
  match ho : s.offered with
  | [] => exact ⟨s, step_wait h.parameters ho⟩
  | .reset :: rest => exact ⟨_, step_reset h.parameters ho⟩
  | .packet p :: rest =>
    rw [step_packet h.parameters h.ready ho]
    exact runPacket_completes p ((drivable_accept s rest).mpr (drivable_of_inv h))

/-! ### Procedures that do not look into the Receive Buffer (R24, U3) -/

/-- With another buffer the procedure answers the same and leaves the same state but for that buffer. -/
def BufferBlind {α : Type} (x : Run α) : Prop :=
  ∀ (s : State) (b : List Byte) (a : α) (u : State), s.drivable → x s = .ok (a, u) →
    x (s.setRxbuf b) = .ok (a, u.setRxbuf b)

/-- A procedure whose result and whose effect are blind to the buffer is so itself. -/
theorem bufferBlind_of_run {α : Type} {x : Run α} {r : State → α} {g : State → State}
    (hx : ∀ s, s.drivable → x s = .ok (r s, g s)) (hr : ∀ s b, r (s.setRxbuf b) = r s)
    (hg : ∀ s b, g (s.setRxbuf b) = (g s).setRxbuf b) : BufferBlind x := by
  intro s b a u hd h
  rw [hx s hd] at h
  cases h
  rw [hx (s.setRxbuf b) hd, hr, hg]

/-- A procedure of the engine: its result and its compact trace are read off the answers. -/
theorem bufferBlind_of_play {α : Type} {x : Run α} {r : State → α} {ls : State → List Letter}
    (hx : ∀ s, s.drivable → x s = .ok (r s, s.play (ls s))) (hr : ∀ s b, r (s.setRxbuf b) = r s := by intros; rfl)
    (hl : ∀ s b, ls (s.setRxbuf b) = ls s := by intros; rfl) : BufferBlind x :=
  bufferBlind_of_run hx hr fun s b => by rw [play_setRxbuf, hl]

theorem bufferBlind_result {α : Type} {x : Run α} (v : α → Value) (hx : BufferBlind x) :
    BufferBlind (do let r ← x; return v r) := by
  intro s b w u hd h
  obtain ⟨a, t, ha, ht⟩ := run_bind_ok h
  rw [run_bind (hx s b a t hd ha)]
  cases ht
  rfl

/-- Start-Wait retries by the answers alone (R113). -/
theorem bufferBlind_startWait (b : Byte) : BufferBlind (startWait b) := by
  intro s buf ok u hd h
  rw [startWait_eq] at h ⊢
  obtain ⟨k, hk, hhigh, hlow, hrun⟩ | ⟨hhigh, hrun⟩ := startAttempts_run b s.cfg.startWaitRetries.toNat hd
  · rw [hrun] at h
    cases h
    rw [← play_setRxbuf]
    exact startAttempts_success b k _ ((drivable_setRxbuf s buf).mpr hd) hk hhigh hlow
  · rw [hrun] at h
    cases h
    rw [← play_setRxbuf]
    exact startAttempts_failure b _ ((drivable_setRxbuf s buf).mpr hd) hhigh

/-- Only `READ`, `PEEK` and `REQUEST_FROM` look into the buffer or store into it. -/
theorem bufferBlind_body {i : Instr} (hread : i ≠ .read) (hpeek : i ≠ .peek)
    (hreq : ∀ a q ia z x, i ≠ .requestFrom a q ia z x) : BufferBlind (body i) := by
  cases i with
  | initializeBus => exact bufferBlind_result boolValue (bufferBlind_of_play fun _ => initBus_run)
  | beginTransmission a =>
    exact bufferBlind_result _ (bufferBlind_of_run (fun _ => beginTransmission_run a) (fun _ _ => rfl)
      fun s b => by rw [play_setRxbuf]; rfl)
  | write b =>
    exact bufferBlind_result byteValue (bufferBlind_of_run (fun _ => ctrlWrite_run b) (fun _ _ => rfl)
      fun s b => by rw [play_setRxbuf]; rfl)
  | writeBytes count payload =>
    exact bufferBlind_result byteValue (bufferBlind_of_run (fun _ => writeAll_run _ 0) (fun _ _ => rfl)
      fun s b => by rw [play_setRxbuf]; rfl)
  | endTransmission x =>
    exact bufferBlind_result errValue (bufferBlind_of_run (fun _ => endTransmission_run x) (fun _ _ => rfl)
      fun s b => by rw [play_setRxbuf]; rfl)
  | requestFrom a q ia z x => exact absurd rfl (hreq a q ia z x)
  | available => exact bufferBlind_of_run (g := id) (fun _ _ => rfl) (fun _ _ => rfl) fun _ _ => rfl
  | read => exact absurd rfl hread
  | peek => exact absurd rfl hpeek
  | flush => exact bufferBlind_of_run (g := id) (fun _ _ => rfl) (fun _ _ => rfl) fun _ _ => rfl
  | engStart b => exact bufferBlind_result boolValue (bufferBlind_of_play fun _ => start_run b)
  | engRepStart b => exact bufferBlind_result boolValue (bufferBlind_of_play fun _ => repStart_run b)
  | engStartWait b => exact bufferBlind_result boolValue (bufferBlind_startWait b)
  | engStop => exact bufferBlind_result _ (bufferBlind_of_play fun _ => stop_run)
  | engWrite b => exact bufferBlind_result boolValue (bufferBlind_of_play fun _ => writeByte_run b)
  | engRead x => exact bufferBlind_result byteValue (bufferBlind_of_play fun _ => readByte_run x)
  | pinRelease p =>
    exact bufferBlind_result _ (bufferBlind_of_run (fun s _ => release_run s p) (fun _ _ => rfl)
      fun s b => by cases p <;> rfl)
  | pinDriveLow p =>
    exact bufferBlind_result _ (bufferBlind_of_run (fun s hd => driveLow_run (drivable_pin hd p)) (fun _ _ => rfl)
      fun s b => by cases p <;> rfl)
  | pinRead p =>
    exact bufferBlind_result levelValue (bufferBlind_of_run (fun s _ => readPin_run s p) (fun _ _ => rfl) fun _ _ => rfl)

/-! ### Commands from states that differ in unread bytes only (R24, U3) -/

theorem sameVisible_refl (s : State) : SameVisible s s := ⟨rfl, rfl, fun _ _ => rfl⟩

/-- A state with another buffer, of the same length and with the same bytes below `rx_valid`. -/
theorem sameVisible_setRxbuf {s : State} {b : List Byte} (hl : b.length = s.rxbuf.length)
    (hv : ∀ i, i < s.rxValid.toNat → b[i]? = s.rxbuf[i]?) : SameVisible s (s.setRxbuf b) := ⟨rfl, hl, hv⟩

/-- Inversion of `sameVisible_setRxbuf`: there is no other such state. -/
theorem sameVisible_cases {s s' : State} (h : SameVisible s s') : ∃ b, s' = s.setRxbuf b ∧
    b.length = s.rxbuf.length ∧ ∀ i, i < s.rxValid.toNat → b[i]? = s.rxbuf[i]? :=
  ⟨s'.rxbuf, h.elsewhere, h.length, h.visible⟩

theorem sameVisible_deliver {s s' : State} (h : SameVisible s s') (r : Response) :
    SameVisible (s.deliver r) (s'.deliver r) := by
  obtain ⟨b, rfl, hl, hv⟩ := sameVisible_cases h
  exact ⟨rfl, hl, hv⟩

theorem sameVisible_accept {s s' : State} (h : SameVisible s s') (rest : List HostInput) :
    SameVisible (s.accept rest) (s'.accept rest) := by
  obtain ⟨b, rfl, hl, hv⟩ := sameVisible_cases h
  exact ⟨rfl, hl, hv⟩

/-- `READ`'s move of the cursor (R151). -/
theorem sameVisible_advance {s s' : State} (h : SameVisible s s') :
    SameVisible (s.setRxCursor (s.rxCursor + 1)) (s'.setRxCursor (s'.rxCursor + 1)) := by
  obtain ⟨b, rfl, hl, hv⟩ := sameVisible_cases h
  exact ⟨rfl, hl, hv⟩

/-- A reset event gives every buffer byte its reset value (log 2). -/
theorem resetBlock_of_sameVisible {s s' : State} (h : SameVisible s s') (rest : List HostInput) :
    s'.resetBlock rest = s.resetBlock rest := by
  obtain ⟨b, rfl, -, -⟩ := sameVisible_cases h
  rfl

/-- Below `rx_valid` the byte at the cursor is a visible one. -/
theorem byteAtCursor_setRxbuf {s : State} {b : List Byte} (hv : ∀ i, i < s.rxValid.toNat → b[i]? = s.rxbuf[i]?)
    (hc : s.rxCursor.toNat < s.rxValid.toNat) : (s.setRxbuf b).byteAtCursor = s.byteAtCursor := by
  change b.getD s.rxCursor.toNat 0 = s.rxbuf.getD s.rxCursor.toNat 0
  rw [List.getD_eq_getElem?_getD, List.getD_eq_getElem?_getD, hv _ hc]

/-- From `s` and `s'` the procedure gives the same answer and states that differ in unread bytes only. -/
def AnswersAlike {α : Type} (x : Run α) (s s' : State) : Prop :=
  ∃ a u u', x s = .ok (a, u) ∧ x s' = .ok (a, u') ∧ SameVisible u u'

theorem answersAlike_result {α : Type} {x : Run α} {s s' : State} (v : α → Value) (h : AnswersAlike x s s') :
    AnswersAlike (do let r ← x; return v r) s s' := by
  obtain ⟨a, u, u', hu, hu', hsame⟩ := h
  exact ⟨v a, u, u', body_of_run hu, body_of_run hu', hsame⟩

/-- A command that does not look into the buffer leaves `rx_valid` and every byte as they were. -/
theorem answersAlike_of_bufferBlind {i : Instr} {s s' : State} (hd : s.drivable) (h : SameVisible s s')
    (hi : BufferBlind (body i)) (hreq : ∀ a q ia z x, i ≠ .requestFrom a q ia z x) : AnswersAlike (body i) s s' := by
  obtain ⟨t, ht⟩ := exec_completes i hd
  obtain ⟨hbuf, hvalid, -⟩ := onlyRequestFromFillsTheBuffer i s t ht hreq
  obtain ⟨v, u, hb, rfl⟩ := exec_next ht
  obtain ⟨b, rfl, hl, hv⟩ := sameVisible_cases h
  rw [State.deliver_rxbuf] at hbuf
  rw [State.deliver_rxValid] at hvalid
  rw [← hbuf] at hl
  rw [← hbuf, ← hvalid] at hv
  exact ⟨v, u, u.setRxbuf b, hb, hi s b v u hd hb, sameVisible_setRxbuf hl hv⟩

/-- `READ` and `PEEK` show a byte only below `rx_valid` (R151, R152). -/
theorem answersAlike_of_cursorByte {x : Run Value} {g : State → State} {s s' : State}
    (hx : ∀ s, x s = if s.rxValid ≤ s.rxCursor then .ok (noData, s) else .ok (byteValue s.byteAtCursor, g s))
    (h : SameVisible s s') (hg : SameVisible (g s) (g s')) : AnswersAlike x s s' := by
  obtain ⟨b, rfl, -, hv⟩ := sameVisible_cases h
  by_cases hc : s.rxValid ≤ s.rxCursor
  · have hc' : (s.setRxbuf b).rxValid ≤ (s.setRxbuf b).rxCursor := hc
    exact ⟨_, _, _, (hx s).trans (if_pos hc), (hx _).trans (if_pos hc'), h⟩
  · have hc' : ¬(s.setRxbuf b).rxValid ≤ (s.setRxbuf b).rxCursor := hc
    have hbyte := byteAtCursor_setRxbuf hv (Nat.lt_of_not_le hc)
    exact ⟨_, _, _, (hx s).trans (if_neg hc), ((hx _).trans (if_neg hc')).trans (by rw [hbyte]), hg⟩

/-- The first `n` bytes after `n` Reads are the ones read, whatever the buffer held (R24). -/
theorem storedBytes_visible {buf buf' : List Byte} (hl : buf'.length = buf.length) (n : Nat) (f : Nat → Level) {j : Nat}
    (hj : j < n) : (storedBytes 0 n f buf')[j]? = (storedBytes 0 n f buf)[j]? := by
  rw [storedBytes_getElem?, storedBytes_getElem?, hl]
  split
  · rfl
  · rw [List.getElem?_eq_none (by omega), List.getElem?_eq_none (by omega)]

/-- What `REQUEST_FROM` makes visible it has stored (R134). -/
theorem answersAlike_requestFrom {s s' : State} (hd : s.drivable) (h : SameVisible s s') (a : BitVec 7) (q : BitVec 8)
    (ia : BitVec 32) (z : BitVec 8) (x : Bool) : AnswersAlike (requestFrom a q ia z x) s s' := by
  obtain ⟨b, rfl, hl, -⟩ := sameVisible_cases h
  have hrun' := requestFrom_run a q ia z x ((drivable_setRxbuf s b).mpr hd)
  rw [play_setRxbuf] at hrun'
  refine ⟨_, _, _, requestFrom_run a q ia z x hd, hrun', ⟨rfl, ?_, fun j hj => ?_⟩⟩
  · exact (storedBytes_length _ _ _ _).trans (hl.trans (storedBytes_length _ _ _ _).symm)
  · refine storedBytes_visible hl _ _ (hj.trans_le ?_)
    simp only [State.setRxCursor_rxValid, State.setRxValid_rxValid]
    split
    · exact le_rfl
    · exact Nat.zero_le _

theorem answersAlike_body (i : Instr) {s s' : State} (hd : s.drivable) (h : SameVisible s s') :
    AnswersAlike (body i) s s' := by
  by_cases hread : i = .read
  · subst hread
    exact answersAlike_of_cursorByte streamRead_run h (sameVisible_advance h)
  by_cases hpeek : i = .peek
  · subst hpeek
    exact answersAlike_of_cursorByte (g := id) streamPeek_run h h
  by_cases hreq : ∀ a q ia z x, i ≠ .requestFrom a q ia z x
  · exact answersAlike_of_bufferBlind hd h (bufferBlind_body hread hpeek hreq) hreq
  · push Not at hreq
    obtain ⟨a, q, ia, z, x, rfl⟩ := hreq
    exact answersAlike_result byteValue (answersAlike_requestFrom hd h a q ia z x)

theorem runPacket_sameVisible (p : Packet) {s s' : State} (hd : s.drivable) (h : SameVisible s s') :
    ∃ t t', runPacket p s = .next t ∧ runPacket p s' = .next t' ∧ SameVisible t t' := by
  cases hp : decode p with
  | ok i =>
    obtain ⟨v, u, u', hu, hu', hsame⟩ := answersAlike_body i hd h
    exact ⟨_, _, (runPacket_legal hp s).trans (exec_of_body hu), (runPacket_legal hp s').trans (exec_of_body hu'),
      sameVisible_deliver hsame _⟩
  | error e => exact ⟨_, _, runPacket_illegal hp s, runPacket_illegal hp s', sameVisible_deliver h _⟩

/-- Settles O45: what the host offers is the same to both states; a command answers alike (`answersAlike_body`), and no
other step looks at the buffer. -/
theorem unreadBufferIsNeverObserved : Obligations.UnreadBufferIsNeverObserved := by
  intro s s' hinv h
  obtain ⟨b, hs', -, -⟩ := sameVisible_cases h
  have hw' : s'.cfg.wf = true := by rw [hs']; exact hinv.parameters
  have hr' : s'.sequencer = .ready := by rw [hs']; exact hinv.ready
  have ho' : s'.offered = s.offered := by rw [hs']; rfl
  match ho : s.offered with
  | [] => exact ⟨s, s', step_wait hinv.parameters ho, step_wait hw' (ho'.trans ho), h⟩
  | .reset :: rest =>
    refine ⟨_, _, step_reset hinv.parameters ho, step_reset hw' (ho'.trans ho), ?_⟩
    rw [resetBlock_of_sameVisible h]
    exact sameVisible_refl _
  | .packet p :: rest =>
    rw [step_packet hinv.parameters hinv.ready ho, step_packet hw' hr' (ho'.trans ho)]
    exact runPacket_sameVisible p ((drivable_accept s rest).mpr (drivable_of_inv hinv)) (sameVisible_accept h rest)

end Sys2Proof.Machine

/-! PROOFS. The family 20_memory.md: the wire conditions of the procedures and of a whole read. -/

namespace Sys2Proof.Machine

/-! ### The conditions of the procedures (R58, R69) -/

theorem lines_of_idle {s : State} (h : s.idle) : s.lines = idleLines := by
  simp only [State.lines, drive_released, bne_iff_ne.mpr h.1, bne_iff_ne.mpr h.2]

theorem lines_of_held {s : State} (h : s.held) : s.lines = heldLines := by
  rw [State.lines, h.1, h.2]
  rfl

/-- The clock is low while `initialize` releases the data line, so its one possible condition is the START of driving a
released data line low (R110 a). -/
theorem lineEffect_initialize (c : Config) (a a' : Level) (x : Bool) :
    LineEffect c (initializeLetters a a') { sdaReleased := x, sclReleased := x } idleLines (if x then [.start] else []) := by
  unfold LineEffect
  cases hp : c.pullupAssist <;> cases x <;>
    simp [initializeLetters, expand, Letter.events, releaseEvents, driveLowEvents, hp, conditions, conditionsAlong,
      pinTrace, linesAfter, Lines.switch, conditionOf, released_ne_output]

/-- Settles O27: each clause is the condition part of the procedure's line effect, and `IDLE` and `HELD` are the lines the
effects begin from. -/
theorem proceduresMakeTheirConditions : Obligations.ProceduresMakeTheirConditions :=
  ⟨fun b ack c sample last a a' =>
    ⟨(lineEffect_start_idle c b ack).1, (lineEffect_start_held c b ack).1, (lineEffect_repStart c b ack).1,
      (lineEffect_repStart_idle c b ack).1, (lineEffect_stop_held c).1, (lineEffect_stop_idle c).1,
      (lineEffect_write c b ack false).1, (lineEffect_write_idle c b ack).1, (lineEffect_read c sample last).1,
      (lineEffect_initialize c a a' true).1, (lineEffect_initialize c a a' false).1⟩,
    fun _ => ⟨lines_of_idle, lines_of_held⟩⟩

/-! ### The conditions of a whole read (R65, R134) -/

/-- The addressing of a read from `IDLE`: the write phase opens with a Start and leaves the lines `HELD`, from where the read
phase opens with a repeated one. Without a write phase the read phase opens with the Start. -/
theorem lineEffect_requestAddressing (c : Config) (a : BitVec 7) (i : BitVec 32) (z : BitVec 8) (f : Nat → Level)
    (b : Byte) (ack : Level) :
    LineEffect c (pointerLetters false a i z f ++ openLetters (false || z != 0) b ack) idleLines heldLines
      (if z = 0 then [.start] else [.start, .start]) := by
  by_cases hz : z = 0
  · subst hz
    exact lineEffect_start_idle c b ack
  · rw [pointerLetters, if_neg hz, if_neg hz, Bool.false_or, bne_iff_ne.mpr hz]
    exact lineEffect_append (lineEffect_append (lineEffect_start_idle c _ _) (lineEffect_writes c _ _))
      (lineEffect_repStart c b ack)

/-- Step 7 of R134: a STOP if asked for, else the lines stay `HELD`. -/
theorem lineEffect_requestStop (c : Config) (sendStop : Bool) :
    LineEffect c (if sendStop then stopLetters else []) heldLines (if sendStop then idleLines else heldLines)
      (if sendStop then [.stop] else []) := by
  cases sendStop
  · exact lineEffect_nil c _
  · exact lineEffect_stop_held c

theorem lineEffect_request (c : Config) (a : BitVec 7) (q : Nat) (i : BitVec 32) (z : BitVec 8) (sendStop : Bool)
    (f : Nat → Level) :
    LineEffect c (requestLetters false a q i z sendStop f) idleLines (if sendStop then idleLines else heldLines)
      ((if z = 0 then [.start] else [.start, .start]) ++ (if sendStop then [.stop] else [])) := by
  have h := lineEffect_append (lineEffect_requestAddressing c a i z f (addrByte a rwRead) (f (readAckIndex z)))
    (lineEffect_reads c q fun k => f (readAckIndex z + 1 + k))
  rw [List.append_nil] at h
  exact lineEffect_append h (lineEffect_requestStop c sendStop)

/-- From a drivable state `REQUEST_FROM` emits the compact trace of R134, whatever it is answered. -/
theorem exec_requestFrom_trace (a : BitVec 7) (q : BitVec 8) (i : BitVec 32) (z : BitVec 8) (sendStop : Bool) {s : State}
    (h : s.drivable) :
    ∃ t, exec (.requestFrom a q i z sendStop) s = .next t ∧ t.trace = s.trace ++
      expand s.cfg (requestLetters s.inTransmission a (clampQuantity s.cfg q).toNat i z sendStop s.answer) := by
  have hbody := body_of_run (v := byteValue) (requestFrom_run a q i z sendStop h)
  obtain ⟨t, ht, hc⟩ := exec_completed (i := .requestFrom a q i z sendStop) h hbody rfl
  exact ⟨t, ht, hc.emitted.trace⟩

/-- Settles O37: the events are those of R134's compact trace, whose conditions from `IDLE` are `lineEffect_request`. -/
theorem requestFromMakesItsFrame : Obligations.RequestFromMakesItsFrame := by
  intro a q i z sendStop s hd hidle hflag
  obtain ⟨t, ht, htrace⟩ := exec_requestFrom_trace a q i z sendStop hd
  rw [hflag] at htrace
  refine ⟨t, _, ht, htrace, ?_⟩
  rw [lines_of_idle hidle]
  exact (lineEffect_request s.cfg a _ i z sendStop s.answer).1

end Sys2Proof.Machine

/-! PROOFS. The family 30_encoding.md: the two round trips of the codec, the illegal packets and the response to every
packet, the assembler, and a long write as its first byte and the rest. -/

namespace Sys2Proof

/-! ### The word of a row, written from the fields of its format (R76, R77) -/

theorem exists_layout (w : CommandWord) : ∃ op s a q z i, w = layoutWord op s a q z i :=
  ⟨_, _, _, _, _, _, (layout_fields w).symm⟩

/-- The word of a row: its `OP`, the operands of its format as they stand in `w`, and 0 in every other field. -/
def Format.fill (f : Format) (op : BitVec 8) (w : CommandWord) : CommandWord :=
  match f with
  | .none => layoutWord op false 0 0 0 0
  | .address => layoutWord op false (fieldA w) 0 0 0
  | .byte => layoutWord op false 0 (fieldQ w) 0 0
  | .flag => layoutWord op (fieldS w) 0 0 0 0
  | .request => layoutWord op (fieldS w) (fieldA w) (fieldQ w) (fieldZ w) (fieldI w)
  | .pin => layoutWord op false (pinField (fieldP w)) 0 0 0

@[simp] theorem fieldOp_fill (f : Format) (op : BitVec 8) (w : CommandWord) : fieldOp (f.fill op w) = op := by
  cases f <;> exact fieldOp_layout ..

/-- The pin's mask leaves bit 0 of the `A` field free and fixes the six bits above it (R77). -/
theorem and_pinMask_eq_zero (a : BitVec 7) :
    a &&& 126#7 = 0#7 ↔ a = pinField (if a.getLsbD 0 then .scl else .sda) := by
  revert a
  decide

/-- A word meets the mask of a format exactly when it is the row's word with the operands it has itself (R77). -/
theorem and_mask_eq_iff (f : Format) (op : BitVec 8) (w : CommandWord) :
    w &&& f.mask = layoutWord op false 0 0 0 0 ↔ w = f.fill op w := by
  obtain ⟨op', s, a, q, z, i, rfl⟩ := exists_layout w
  cases f with
  | none => simp [Format.fill, mask_none, and_layout, layout_inj, and_ones8, and_ones7, and_ones32]
  | address => simp [Format.fill, mask_address, and_layout, layout_inj, and_ones8, and_ones32]
  | byte => simp [Format.fill, mask_byte, and_layout, layout_inj, and_ones8, and_ones7, and_ones32]
  | flag => simp [Format.fill, mask_flag, and_layout, layout_inj, and_ones8, and_ones7, and_ones32]
  | request => simp [Format.fill, mask_request, and_layout, layout_inj, and_ones8]
  | pin => simp [Format.fill, mask_pin, and_layout, layout_inj, and_ones8, and_ones32, and_pinMask_eq_zero, fieldP_eq]

theorem matchWord_iff_fill (o : Opcode) (w : CommandWord) :
    w &&& o.format.mask = o.matchWord ↔ w = o.format.fill o.code w := by
  rw [matchWord_layout, and_mask_eq_iff]

/-- The command of a row is encoded in the row's word. -/
theorem encodeWord_operands (o : Opcode) (p : Packet) :
    encodeWord (o.operands p) = o.format.fill o.code p.word := by
  cases o <;> rfl

/-- A row takes from an encoded command the operands it was encoded with. -/
theorem operands_encode (i : Instr) : i.opcode.operands (encode i) = i := by
  cases i <;> simp [encode, encodeWord, encodePayload, Instr.opcode, Opcode.operands]

theorem encodeWord_eq_fill (i : Instr) : encodeWord i = i.opcode.format.fill i.opcode.code (encodeWord i) := by
  have h := encodeWord_operands i.opcode (encode i)
  rwa [operands_encode] at h

@[simp] theorem fieldOp_encodeWord (i : Instr) : fieldOp (encodeWord i) = i.opcode.code := by
  rw [encodeWord_eq_fill, fieldOp_fill]

/-! ### The payload (R82, R88) -/

theorem code_inj {o o' : Opcode} : o.code = o'.code ↔ o = o' :=
  ⟨fun h => Option.some.inj (by rw [← ofCode_code o, h, ofCode_code]), congrArg Opcode.code⟩

theorem payloadLength_of_code {o : Opcode} {w : CommandWord} (h : o.code = fieldOp w) :
    payloadLength w = if o = .writeBytes then (fieldQ w).toNat else 0 := by
  rw [payloadLength, ← h]
  simp only [code_inj]

/-- A command is well-formed exactly when its packet has the payload its word asks for. -/
theorem wellFormed_iff (i : Instr) :
    i.wellFormed = true ↔ (encode i).payload.length = payloadLength (encode i).word := by
  have h : i.opcode.code = fieldOp (encode i).word := (fieldOp_encodeWord i).symm
  rw [payloadLength_of_code h]
  cases i <;> simp [Instr.wellFormed, Instr.opcode, encode, encodePayload, encodeWord]

theorem encodePayload_operands {o : Opcode} {p : Packet} (ho : o.code = fieldOp p.word)
    (hp : p.payload.length = payloadLength p.word) : encodePayload (o.operands p) = p.payload := by
  rw [payloadLength_of_code ho] at hp
  cases o with
  | writeBytes => rfl
  | _ => exact (List.eq_nil_of_length_eq_zero hp).symm

/-! ### What the decoder answers (R79, R80) -/

/-- The packet is of the row `o`: its `OP` is the row's, its reserved bits are 0 and its payload is as long as its word
asks for. -/
structure Packet.InRow (p : Packet) (o : Opcode) : Prop where
  code : o.code = fieldOp p.word
  word : p.word &&& o.format.mask = o.matchWord
  payload : p.payload.length = payloadLength p.word

theorem decode_of_code {p : Packet} {o : Opcode} (h : o.code = fieldOp p.word) :
    decode p =
      if p.word &&& o.format.mask ≠ o.matchWord then .error .reservedBit
      else if p.payload.length ≠ payloadLength p.word then .error .payloadLength
      else .ok (o.operands p) := by
  rw [decode, ← h, ofCode_code]

theorem decode_of_no_code {p : Packet} (h : Opcode.ofCode (fieldOp p.word) = none) :
    decode p = .error .undefinedOpcode := by
  rw [decode, h]

theorem decode_inRow {p : Packet} {o : Opcode} (h : p.InRow o) : decode p = .ok (o.operands p) := by
  rw [decode_of_code h.code, if_neg (not_not.mpr h.word), if_neg (not_not.mpr h.payload)]

/-- Inversion: a packet that decodes is of some row, and its command is the row's. -/
theorem inRow_of_decode {p : Packet} {i : Instr} (h : decode p = .ok i) : ∃ o, p.InRow o ∧ o.operands p = i := by
  cases ho : Opcode.ofCode (fieldOp p.word) with
  | none =>
    rw [decode_of_no_code ho] at h
    cases h
  | some o =>
    have hc := code_of_ofCode ho
    rw [decode_of_code hc] at h
    split_ifs at h with hw hp
    cases h
    exact ⟨o, ⟨hc, not_not.mp hw, not_not.mp hp⟩, rfl⟩

/-- The packet of a well-formed command is of the command's row. -/
theorem encode_inRow {i : Instr} (h : i.wellFormed = true) : (encode i).InRow i.opcode where
  code := (fieldOp_encodeWord i).symm
  word := (matchWord_iff_fill _ _).mpr (encodeWord_eq_fill i)
  payload := (wellFormed_iff i).mp h

/-- A packet of a row is the encoding of the command that the row takes from it. -/
theorem encode_operands {p : Packet} {o : Opcode} (h : p.InRow o) : encode (o.operands p) = p := by
  have hw : encodeWord (o.operands p) = p.word :=
    (encodeWord_operands o p).trans ((matchWord_iff_fill o p.word).mp h.word).symm
  rw [encode, hw, encodePayload_operands h.code h.payload]

/-- Settles O5: the encoding is of the command's row, and the row takes the command's own operands from it. -/
theorem decodeOfEncodeIsTheCommand : Obligations.DecodeOfEncodeIsTheCommand :=
  fun i h => by rw [decode_inRow (encode_inRow h), operands_encode]

/-- Settles O6: a packet that decodes is of a row, so it is the encoding of its command, whose payload is therefore as
long as `Q` asks for. -/
theorem encodeOfDecodeIsThePacket : Obligations.EncodeOfDecodeIsThePacket := by
  intro p i h
  obtain ⟨o, hr, rfl⟩ := inRow_of_decode h
  have he := encode_operands hr
  refine ⟨he, (wellFormed_iff _).mpr ?_⟩
  rw [he]
  exact hr.payload

/-! ### Illegal packets (R80) -/

theorem decode_error_iff (p : Packet) : (∃ e, decode p = .error e) ↔
    (∀ o : Opcode, o.code ≠ fieldOp p.word) ∨
    (∃ o : Opcode, o.code = fieldOp p.word ∧ p.word &&& o.format.mask ≠ o.matchWord) ∨
    ∃ o : Opcode, o.code = fieldOp p.word ∧ p.payload.length ≠ payloadLength p.word := by
  cases ho : Opcode.ofCode (fieldOp p.word) with
  | none =>
    exact iff_of_true ⟨_, decode_of_no_code ho⟩ (.inl ((ofCode_none_iff _).mp ho))
  | some o =>
    have hc := code_of_ofCode ho
    rw [decode_of_code hc, ← hc, or_iff_right (fun h => h o rfl)]
    simp only [code_inj, exists_eq_left]
    split_ifs with hw hp
    · exact iff_of_true ⟨_, rfl⟩ (.inl hw)
    · exact iff_of_true ⟨_, rfl⟩ (.inr hp)
    · exact iff_of_false (fun ⟨_, h⟩ => by cases h) (not_or_intro hw hp)

/-- `OP` is no row's exactly in the gaps of the opcode map (R78). -/
theorem code_ne_iff (c : BitVec 8) : (∀ o : Opcode, o.code ≠ c) ↔
    c.toNat = 0 ∨ (0x0B ≤ c.toNat ∧ c.toNat ≤ 0x1F) ∨ (0x26 ≤ c.toNat ∧ c.toNat ≤ 0x2F) ∨ 0x33 ≤ c.toNat := by
  rw [← ofCode_none_iff]
  revert c
  decide

theorem mask_fieldOp (f : Format) : fieldOp f.mask = 255#8 := by
  cases f <;> rfl

/-- Every format's mask covers the `OP` field (R77). -/
theorem fieldOp_and_mask (f : Format) (w : CommandWord) : fieldOp (w &&& f.mask) = fieldOp w := by
  rw [← and_ones8 (fieldOp w), ← mask_fieldOp f]
  exact BitVec.extractLsb'_and

theorem and_belowOp_eq_zero (w : CommandWord) :
    w &&& 0x00FFFFFFFFFFFFFF = 0 ↔ w = layoutWord (fieldOp w) false 0 0 0 0 := by
  have hm : (0x00FFFFFFFFFFFFFF : CommandWord) = layoutWord 0 true 127 255 255 0xFFFFFFFF := by decide
  have hz : (0 : CommandWord) = layoutWord 0 false 0 0 0 0 := by decide
  obtain ⟨op, s, a, q, z, i, rfl⟩ := exists_layout w
  rw [hm, hz, and_layout, layout_inj, layout_inj]
  simp [and_ones8, and_ones7, and_ones32]

/-- In its own row a word fails to match exactly when a reserved bit of the format is 1 (R77, R80 b). -/
theorem reservedBit_iff {o : Opcode} {w : CommandWord} (h : o.code = fieldOp w) :
    w &&& o.format.mask ≠ o.matchWord ↔ w &&& o.format.mask &&& 0x00FFFFFFFFFFFFFF ≠ 0 := by
  rw [Ne, Ne, and_belowOp_eq_zero, fieldOp_and_mask, ← h, matchWord_layout]

end Sys2Proof

namespace Sys2Proof.Machine

/-! ### An illegal packet's answer (R163) -/

/-- The state a ready block is in after an illegal packet: the port and the responses alone have changed (R163). -/
theorem raiseIllegal_accept {s : State} (h : s.sequencer = .ready) (rest : List HostInput) :
    (s.accept rest).raiseIllegal = { s with offered := rest, responses := s.responses ++ [0x80000000] } := by
  change { s with offered := rest, responses := s.responses ++ [illegalResponse], sequencer := .ready } = _
  rw [← h, illegalResponse]

/-- Settles O4: the decoder's three errors are the cases of R80, and the step answers ILLEGAL (`runPacket_illegal`). -/
theorem packetIsIllegalExactlyInTheThreeCases : Obligations.PacketIsIllegalExactlyInTheThreeCases := by
  refine ⟨fun p => ?_, fun s p rest e hw hr ho he => ?_⟩
  · rw [decode_error_iff, code_ne_iff]
    refine or_congr_right (or_congr (exists_congr fun o => and_congr_right reservedBit_iff)
      (exists_congr fun o => and_congr_right fun h => ?_))
    rw [payloadLength_of_code h]
  · rw [step_packet hw hr ho, runPacket_illegal he, raiseIllegal_accept hr]

/-! ### The response to every packet (R90) -/

theorem responseWord_getLsbD_31 (v : Value) : (responseWord v).getLsbD 31 = false := by
  simp [responseWord]

theorem responseWord_reserved (v : Value) : (responseWord v).extractLsb' 16 15 = 0 := by
  apply BitVec.eq_of_getLsbD_eq
  intro k hk
  simp [responseWord]

/-- A command that answers adds one response, the one of its value, to those that stood. -/
theorem exec_response {i : Instr} {s t : State} (h : exec i s = .next t) :
    t.sequencer = .ready ∧ t.offered = s.offered ∧ ∃ v, t.responses = s.responses ++ [responseWord v] := by
  obtain ⟨v, u, ⟨ls, hu⟩, rfl⟩ := exec_played h
  rw [hu]
  exact ⟨rfl, play_offered s ls, v, congrArg (· ++ [responseWord v]) (play_responses s ls)⟩

/-- Settles O8: a command's response is the word of its value (`exec_response`), an illegal packet's is the fixed one. -/
theorem everyPacketHasOneResponse : Obligations.EveryPacketHasOneResponse := by
  intro s t p rest hw hr ho h
  rw [step_packet hw hr ho] at h
  cases hp : decode p with
  | ok i =>
    rw [runPacket_legal hp] at h
    obtain ⟨hs, hoff, v, hv⟩ := exec_response h
    have hlegal : ¬∃ e, Except.ok i = (.error e : Except Illegal Instr) := fun ⟨_, he⟩ => by cases he
    refine ⟨hs, hoff, responseWord v, hv, ?_, responseWord_reserved v, fun he => absurd he hlegal⟩
    rw [responseWord_getLsbD_31]
    exact iff_of_false Bool.false_ne_true hlegal
  | error e =>
    rw [runPacket_illegal hp] at h
    cases h
    exact ⟨rfl, rfl, illegalResponse, rfl, iff_of_true (by decide) ⟨e, rfl⟩, by decide, fun _ => by decide⟩

/-- Settles O9: `step_wait` and `step_busy`. -/
theorem blockWaitsAndAcceptsNothingWhileBusy : Obligations.BlockWaitsAndAcceptsNothingWhileBusy :=
  ⟨fun _ hw _ ho => step_wait hw ho, fun _ _ _ => step_busy⟩

/-- Settles O7: each word is decoded. -/
theorem sampleWordsDecode : Obligations.SampleWordsDecode := by
  unfold Obligations.SampleWordsDecode
  decide

/-! ### The assembler (R92, R93) -/

/-- What a form of the row `o` may assemble to: nothing, or a well-formed command of that row. -/
def AssemblesTo (o : Opcode) (x : Option Instr) : Prop :=
  ∀ i, x = some i → i.opcode = o ∧ i.wellFormed = true

theorem assemblesTo_none (o : Opcode) : AssemblesTo o none := fun _ h => by cases h

theorem assemblesTo_some {o : Opcode} {i : Instr} (ho : i.opcode = o) (hw : i.wellFormed = true) :
    AssemblesTo o (some i) := fun _ h => by
  cases h
  exact ⟨ho, hw⟩

theorem assemblesTo_map {α : Type} {o : Opcode} {f : α → Instr} (x : Option α)
    (hf : ∀ a, (f a).opcode = o ∧ (f a).wellFormed = true) : AssemblesTo o (x.map f) := fun i h => by
  obtain ⟨a, -, rfl⟩ := Option.map_eq_some_iff.mp h
  exact hf a

theorem assemblesTo_bind {α : Type} {o : Opcode} {f : α → Option Instr} (x : Option α)
    (hf : ∀ a, AssemblesTo o (f a)) : AssemblesTo o (x >>= f) := fun i h => by
  obtain ⟨a, -, ha⟩ := Option.bind_eq_some_iff.mp h
  exact hf a i ha

theorem assemblesTo_request (a q i z s : AsmOperand) : AssemblesTo .requestFrom (asmRequest a q i z s) :=
  assemblesTo_bind _ fun _ => assemblesTo_bind _ fun _ => assemblesTo_bind _ fun _ => assemblesTo_bind _ fun _ =>
    assemblesTo_bind _ fun _ => assemblesTo_some rfl rfl

/-- `WRITE_BYTES` checks its count against its bytes (R88). -/
theorem assemblesTo_writeBytes (count : AsmOperand) (bytes : List AsmOperand) :
    AssemblesTo .writeBytes (asmWriteBytes count bytes) :=
  assemblesTo_bind _ fun c => assemblesTo_bind _ fun bs => by
    split
    case isTrue h => exact assemblesTo_some rfl (beq_iff_eq.mpr h)
    case isFalse => exact assemblesTo_none _

/-- Every form of the tables of R92 and R93 is of the mnemonic written. -/
theorem assemblesTo_assemble (o : Opcode) (ops : List AsmOperand) : AssemblesTo o (assemble o ops) := by
  unfold assemble
  split
  case h_1 | h_5 | h_11 | h_12 | h_13 | h_14 | h_18 => exact assemblesTo_some rfl rfl
  case h_2 | h_3 | h_6 | h_15 | h_16 | h_17 | h_19 | h_20 | h_21 | h_22 | h_23 =>
    exact assemblesTo_map _ fun _ => ⟨rfl, rfl⟩
  case h_4 => exact assemblesTo_writeBytes _ _
  case h_7 | h_8 | h_9 | h_10 => exact assemblesTo_request _ _ _ _ _
  case h_24 => exact assemblesTo_none o

/-- Settles O11: `assemblesTo_assemble`. -/
theorem assembledCommandIsWellFormed : Obligations.AssembledCommandIsWellFormed := assemblesTo_assemble

theorem asmRequest_written (a : BitVec 7) (q : BitVec 8) (i : BitVec 32) (z : BitVec 8) (sendStop : Bool) :
    asmRequest (.num a.toNat) (.num q.toNat) (.num i.toNat) (.num z.toNat) (writeFlag sendStop) =
      some (.requestFrom a q i z sendStop) := by
  simp only [asmRequest, asmBits_num, asmFlag_writeFlag]
  rfl

theorem asmWriteBytes_written {count : BitVec 8} {payload : List Byte} (h : payload.length = count.toNat) :
    asmWriteBytes (.num count.toNat) (payload.map fun b => .num b.toNat) = some (.writeBytes count payload) := by
  simp only [asmWriteBytes, asmBits_num, asmBits_payload, Option.bind_eq_bind, Option.bind_some, if_pos h]

/-- Settles O51: each operand is read back as the field it was written from (`asmBits_num`, `asmFlag_writeFlag`,
`asmPin_pin`), by the form of its row. -/
theorem writtenOperandsAssembleToTheCommand : Obligations.WrittenOperandsAssembleToTheCommand := by
  intro i hw
  cases i with
  | requestFrom a q i z sendStop => exact asmRequest_written a q i z sendStop
  | writeBytes count payload => exact asmWriteBytes_written (beq_iff_eq.mp hw)
  | beginTransmission => exact congrArg (Option.map _) (asmBits_num ..)
  | write | engStart | engRepStart | engStartWait | engWrite => exact congrArg (Option.map _) (asmBits_num ..)
  | endTransmission | engRead => exact congrArg (Option.map _) (asmFlag_writeFlag _)
  | pinRelease | pinDriveLow | pinRead => exact congrArg (Option.map _) (asmPin_pin _)
  | initializeBus | available | read | peek | flush | engStop => rfl

/-- Settles O12: each short form is defined as the long one with the defaults of R93. -/
theorem pseudoInstructionsExpand : Obligations.PseudoInstructionsExpand :=
  ⟨rfl, fun _ _ _ _ _ => ⟨rfl, rfl, rfl⟩⟩

/-! ### A long write as its first byte and the rest (R88, R132) -/

theorem answer_deliver (s : State) (r : Response) : (s.deliver r).answer = s.answer := rfl

theorem drivable_deliver (s : State) (r : Response) : (s.deliver r).drivable ↔ s.drivable := Iff.rfl

theorem play_deliver (s : State) (r : Response) (ls : List Letter) :
    (s.deliver r).play ls = (s.play ls).deliver r := by
  refine (play_setSequencer { s with responses := s.responses ++ [r] } .ready ls).trans ?_
  rw [play_setResponses, ← play_responses s ls]
  rfl

/-- The state after `write(b)` (R131). -/
def State.afterWrite (s : State) (b : Byte) : State :=
  (s.play (writeLetters b (s.answer 0))).setLastError (writeError s.lastError (s.answer 0))

/-- The state after `write_bytes` of the bytes `bs` (R132). -/
def State.afterWrites (s : State) (bs : List Byte) : State :=
  (s.play (writesLetters bs s.answer)).setLastError (errorAfterWrites s.lastError bs.length s.answer)

theorem afterWrite_drivable {s : State} (h : s.drivable) (b : Byte) : (s.afterWrite b).drivable :=
  (drivable_setLastError _ _).mpr (play_drivable _ h)

theorem afterWrite_responses (s : State) (b : Byte) : (s.afterWrite b).responses = s.responses := by
  rw [State.afterWrite, State.setLastError_responses, play_responses]

theorem afterWrites_responses (s : State) (bs : List Byte) : (s.afterWrites bs).responses = s.responses := by
  rw [State.afterWrites, State.setLastError_responses, play_responses]

/-- The writes after the first see the answers after the first. -/
theorem afterWrite_answer (s : State) (b : Byte) : (s.afterWrite b).answer = fun k => s.answer (k + 1) := by
  rw [State.afterWrite, answer_setLastError, play_answers_from s (askCount_write b (s.answer 0))]
  simp only [Nat.add_comm 1]

/-- The traces and the recorded errors of a first write and of the others compose (R168). -/
theorem afterWrites_cons (s : State) (b : Byte) (bs : List Byte) :
    s.afterWrites (b :: bs) = (s.afterWrite b).afterWrites bs := by
  rw [State.afterWrites, State.afterWrites, afterWrite_answer, State.afterWrite, play_setLastError, ← play_append,
    State.setLastError_lastError, errorAfterWrites_succ, setLastError_twice]
  rfl

/-- A response delivered before the writes is as one delivered after them: no write reads it. -/
theorem afterWrites_deliver (s : State) (r : Response) (bs : List Byte) :
    (s.deliver r).afterWrites bs = (s.afterWrites bs).deliver r :=
  congrArg (State.setLastError · (errorAfterWrites s.lastError bs.length s.answer)) (play_deliver s r _)

theorem exec_write (b : Byte) {s : State} (h : s.drivable) : exec (.write b) s =
    .next ((s.afterWrite b).deliver (responseWord (byteValue (if acknowledged (s.answer 0) then 1 else 0)))) :=
  exec_of_body (body_of_run (ctrlWrite_run b h))

theorem exec_writeBytes {bs : List Byte} {s : State} (h : s.drivable) (hn : bs.length < 256) :
    exec (.writeBytes (BitVec.ofNat 8 bs.length) bs) s =
      .next ((s.afterWrites bs).deliver (responseWord (byteValue (BitVec.ofNat 8 (ackCount bs.length s.answer))))) :=
  exec_of_body (body_of_run (writeBytes_run _ bs h (by rw [BitVec.toNat_ofNat, Nat.mod_eq_of_lt hn])))

/-- The acknowledgements of `n + 1` writes as `VALUE`: the first one's and those of the others (R132 d). -/
theorem byteValue_ackCount_succ {n : Nat} (hn : n < 255) (f : Nat → Level) :
    byteValue (BitVec.ofNat 8 (ackCount (n + 1) f)) =
      byteValue (if acknowledged (f 0) then 1 else 0) + byteValue (BitVec.ofNat 8 (ackCount n fun k => f (k + 1))) := by
  have hrest := ackCount_le n fun k => f (k + 1)
  have hall := ackCount_le (n + 1) f
  have hone : byteValue (if acknowledged (f 0) then 1 else 0) = BitVec.ofNat 16 (if f 0 = .low then 1 else 0) := by
    cases f 0 <;> rfl
  rw [byteValue_ofNat (by omega), byteValue_ofNat (by omega), hone, ackCount_succ, BitVec.ofNat_add]

/-- Two responses replaced by one are that one delivered. -/
theorem deliver_twice_setResponses (s : State) (r r' r'' : Response) :
    { (s.deliver r).deliver r' with responses := s.responses ++ [r''] } = s.deliver r'' := rfl

/-- The rest of a long write, after its first byte is answered: the state is the long write's, with two responses. -/
theorem exec_writeBytes_rest (b : Byte) {bs : List Byte} {s : State} (h : s.drivable) (hn : bs.length < 256)
    (r : Response) :
    exec (.writeBytes (BitVec.ofNat 8 bs.length) bs) ((s.afterWrite b).deliver r) =
      .next (((s.afterWrites (b :: bs)).deliver r).deliver
        (responseWord (byteValue (BitVec.ofNat 8 (ackCount bs.length fun k => s.answer (k + 1)))))) := by
  have hd : ((s.afterWrite b).deliver r).drivable := (drivable_deliver _ r).mpr (afterWrite_drivable h b)
  rw [exec_writeBytes hd hn, afterWrites_deliver, ← afterWrites_cons, answer_deliver, afterWrite_answer]

/-- Settles O33: the state after the long write is the one after its first byte and then the rest (`afterWrites_cons`), and
the counts add up (`byteValue_ackCount_succ`). -/
theorem writeBytesIsAWriteAndTheRest : Obligations.WriteBytesIsAWriteAndTheRest := by
  intro b bs s hd hn
  have hall := exec_writeBytes (bs := b :: bs) hd (show bs.length + 1 < 256 by omega)
  rw [List.length_cons, byteValue_ackCount_succ hn] at hall
  refine ⟨_, _, byteValue (if acknowledged (s.answer 0) then 1 else 0),
    byteValue (BitVec.ofNat 8 (ackCount bs.length fun k => s.answer (k + 1))), exec_write b hd, ?_,
    exec_writeBytes_rest b hd (by omega) _, ?_, ?_⟩
  · rw [State.deliver_responses, afterWrite_responses]
  · simp only [State.deliver_responses, afterWrites_responses, afterWrite_responses]
  · rw [hall, ← deliver_twice_setResponses, afterWrites_responses]

end Sys2Proof.Machine

/-! PROOFS. The family 40_pin_driver.md: the masked windows of every command, and the three commands of the shim. -/

namespace Sys2Proof.Machine

/-! ### Every mode switch stands in a window of its own (R103, R105) -/

theorem windowed_releaseEvents (c : Config) (p : Pin) : windowed (releaseEvents c p) = true := rfl

/-- The latch is written for the very pin whose mode is switched next, and written `LOW` (R101, R105). -/
theorem windowed_driveLowEvents (c : Config) (p : Pin) : windowed (driveLowEvents c p) = true := by
  unfold driveLowEvents
  cases c.pullupAssist
  · rfl
  · cases p <;> rfl

/-- Every character is a window of its own, or one event outside every window (R19, R103). -/
theorem windowed_letterEvents (c : Config) (l : Letter) : windowed (l.events c) = true := by
  cases l with
  | relSda | relScl => exact windowed_releaseEvents c _
  | lowSda | lowScl => exact windowed_driveLowEvents c _
  | full | half | askSda | askScl => rfl

theorem windowed_expand (c : Config) (ls : List Letter) : windowed (expand c ls) = true := by
  induction ls with
  | nil => rfl
  | cons l ls ih => exact windowed_append (windowed_letterEvents c l) ih

theorem played_trace {s t : State} (h : Played s t) : ∃ ls, t.trace = s.trace ++ expand s.cfg ls := by
  obtain ⟨ls, ht⟩ := h
  exact ⟨ls, by rw [ht, play_trace]⟩

/-- Settles O17: a command emits the events of some compact trace (`exec_played`), and each of its characters closes the
window it opens. -/
theorem modeSwitchesAreWindowed : Obligations.ModeSwitchesAreWindowed := by
  intro i s t h
  obtain ⟨v, u, hp, rfl⟩ := exec_played h
  obtain ⟨ls, htrace⟩ := played_trace hp
  exact ⟨expand s.cfg ls, htrace, windowed_expand s.cfg ls⟩

/-! ### The characters of a pin (R19) -/

/-- `release(p)` as a character: `D` or `C`. -/
def Letter.release : Pin → Letter
  | .sda => .relSda
  | .scl => .relScl

/-- `drive_low(p)` as a character: `d` or `c`. -/
def Letter.driveLow : Pin → Letter
  | .sda => .lowSda
  | .scl => .lowScl

/-- `read(p)` as a character, with its answer: `?` or `!`. -/
def Letter.ask : Pin → Level → Letter
  | .sda => .askSda
  | .scl => .askScl

@[simp] theorem play_release (s : State) (p : Pin) : s.play [.release p] = s.released p := by
  cases p <;> rfl

@[simp] theorem play_driveLow (s : State) (p : Pin) : s.play [.driveLow p] = s.drivenLow p := by
  cases p <;> rfl

@[simp] theorem play_ask (s : State) (p : Pin) (l : Level) : s.play [.ask p l] = s.asked p l := by
  cases p <;> rfl

@[simp] theorem expand_release (c : Config) (p : Pin) : expand c [.release p] = releaseEvents c p := by
  cases p <;> rfl

@[simp] theorem expand_driveLow (c : Config) (p : Pin) : expand c [.driveLow p] = driveLowEvents c p := by
  cases p <;> exact List.append_nil _

@[simp] theorem expand_ask (c : Config) (p : Pin) (l : Level) : expand c [.ask p l] = [.readInput p l] := by
  cases p <;> rfl

@[simp] theorem askCount_release (p : Pin) : askCount [.release p] = 0 := by
  cases p <;> rfl

@[simp] theorem askCount_driveLow (p : Pin) : askCount [.driveLow p] = 0 := by
  cases p <;> rfl

@[simp] theorem askCount_ask (p : Pin) (l : Level) : askCount [.ask p l] = 1 := by
  cases p <;> rfl

/-! ### The pads after one call of the shim (R100, R101) -/

/-- The other pad is not touched. -/
theorem setPad_pad_of_ne (s : State) {p q : Pin} (h : q ≠ p) (x : Pad) : (s.setPad p x).pad q = s.pad q := by
  cases p <;> cases q
  case sda.sda | scl.scl => exact absurd rfl h
  case sda.scl | scl.sda => rfl

theorem released_pad (s : State) (p : Pin) : (s.released p).pad p =
    { mode := releasedMode s.cfg
      latch := if s.cfg.pullupAssist then Config.freeLatch s.latchDraws else (s.pad p).latch } :=
  State.setPad_pad s p _

theorem released_pad_of_ne (s : State) {p q : Pin} (h : q ≠ p) : (s.released p).pad q = s.pad q :=
  setPad_pad_of_ne s h _

theorem drivenLow_pad (s : State) (p : Pin) : (s.drivenLow p).pad p = { mode := .output, latch := .low } :=
  State.setPad_pad s p _

theorem drivenLow_pad_of_ne (s : State) {p q : Pin} (h : q ≠ p) : (s.drivenLow p).pad q = s.pad q :=
  setPad_pad_of_ne s h _

theorem drivenLow_latchDraws (s : State) (p : Pin) : (s.drivenLow p).latchDraws = s.latchDraws :=
  State.setPad_latchDraws s p _

/-- A released pad pulls up under pull-up assist and floats without, whatever its latch (R33, R100). -/
theorem drive_releasedMode (c : Config) (l : Level) :
    ({ mode := releasedMode c, latch := l } : Pad).drive = if c.pullupAssist then .pullsUp else .floats := by
  unfold releasedMode
  cases c.pullupAssist <;> rfl

@[simp] theorem deliver_pad (s : State) (r : Response) (p : Pin) : (s.deliver r).pad p = s.pad p := rfl

/-! ### A command that plays a compact trace and writes nothing else, from any state -/

section Played

variable (s : State) (ls : List Letter) (v : Value)

theorem emitted_play : Emitted s ((s.play ls).deliver (responseWord v)) ls v :=
  ⟨play_trace s ls, play_reads s ls, congrArg (· ++ [responseWord v]) (play_responses s ls), rfl⟩

theorem keptTransaction_play : KeptTransaction s ((s.play ls).deliver (responseWord v)) :=
  ⟨play_inTransmission s ls, play_lastError s ls⟩

theorem keptBuffer_play : KeptBuffer s ((s.play ls).deliver (responseWord v)) :=
  ⟨play_rxbuf s ls, play_rxCursor s ls, play_rxValid s ls⟩

theorem keptWorld_play : KeptWorld s ((s.play ls).deliver (responseWord v)) :=
  keptWorld_deliver (played_keptWorld ⟨ls, rfl⟩) _

end Played

/-! ### PIN_RELEASE (R100) -/

theorem exec_pinRelease (p : Pin) (s : State) :
    exec (.pinRelease p) s = .next ((s.play [.release p]).deliver (responseWord noValue)) := by
  rw [play_release]
  exact exec_of_body (body_of_run (v := fun _ => noValue) (release_run s p))

/-- Settles O13: the command is one `release(p)` (`exec_pinRelease`), whose pad is `released_pad`. -/
theorem pinReleaseReleasesItsPin : Obligations.PinReleaseReleasesItsPin := by
  refine ⟨fun _ => rfl, fun p s => ⟨_, exec_pinRelease p s, ?_⟩⟩
  obtain ⟨htrace, hreads, hresponse, hready⟩ := emitted_play s [.release p] noValue
  rw [expand_release] at htrace
  rw [askCount_release] at hreads
  refine ⟨htrace, hresponse, hready, hreads, ?_, ?_, ?_, ?_, keptTransaction_play _ _ _, keptBuffer_play _ _ _,
    keptWorld_play _ _ _⟩
  · rw [deliver_pad, play_release, released_pad, releasedMode]
  · rw [deliver_pad, play_release, released_pad, drive_releasedMode]
  · intro hp
    rw [deliver_pad, play_release, released_pad, hp, if_neg Bool.false_ne_true]
  · intro q hq
    rw [deliver_pad, play_release, released_pad_of_ne s hq]

/-! ### PIN_DRIVE_LOW (R101, R165) -/

theorem exec_pinDriveLow {p : Pin} {s : State} (h : s.cfg.pullupAssist = true ∨ (s.pad p).latch = .low) :
    exec (.pinDriveLow p) s = .next ((s.play [.driveLow p]).deliver (responseWord noValue)) := by
  rw [play_driveLow]
  exact exec_of_body (body_of_run (v := fun _ => noValue) (driveLow_run h))

/-- A command whose procedure faults, beside `exec_of_body`. -/
theorem exec_of_body_error {i : Instr} {s : State} {f : Fault} (h : body i s = .error f) : exec i s = .fault f := by
  rw [exec_eq, runCommand, h]

theorem exec_pinDriveLow_fault {p : Pin} {s : State} (hp : s.cfg.pullupAssist = false) (h : (s.pad p).latch = .high) :
    exec (.pinDriveLow p) s = .fault (.drivenHigh p) :=
  exec_of_body_error (run_bind_error (driveLow_fault hp h) _)

/-- Settles O14: the command is one `drive_low(p)` (`exec_pinDriveLow`), whose pad is `drivenLow_pad`, or its fault. -/
theorem pinDriveLowDrivesItsPin : Obligations.PinDriveLowDrivesItsPin := by
  refine ⟨fun _ => rfl, fun p s h => ⟨_, exec_pinDriveLow h, ?_⟩, fun _ _ => exec_pinDriveLow_fault⟩
  obtain ⟨htrace, hreads, hresponse, hready⟩ := emitted_play s [.driveLow p] noValue
  rw [expand_driveLow] at htrace
  rw [askCount_driveLow] at hreads
  refine ⟨htrace, hresponse, hready, hreads, ?_, ?_, ?_, ?_, keptTransaction_play _ _ _, keptBuffer_play _ _ _,
    keptWorld_play _ _ _⟩
  · rw [State.deliver_latchDraws, play_driveLow, drivenLow_latchDraws]
  · rw [deliver_pad, play_driveLow, drivenLow_pad]
  · rw [deliver_pad, play_driveLow, drivenLow_pad, drive_output_low]
  · intro q hq
    rw [deliver_pad, play_driveLow, drivenLow_pad_of_ne s hq]

/-! ### PIN_READ (R102, R56) -/

theorem exec_pinRead (p : Pin) (s : State) :
    exec (.pinRead p) s = .next ((s.play [.ask p (s.answer 0)]).deliver (responseWord (levelValue (s.answer 0)))) := by
  rw [play_ask]
  exact exec_of_body (body_of_run (readPin_run s p))

/-- The environment answers what is listed for the read (R56). -/
theorem answer_of_listed {s : State} {k : Nat} {l : Level} (h : s.answers[s.reads + k]? = some l) : s.answer k = l := by
  rw [State.answer, h]

theorem responseWord_levelValue (l : Level) :
    responseWord (levelValue l) = if l = .low then 0x00000000 else 0x00000001 := by
  cases l <;> rfl

/-- A question changes no pad and draws no latch (R102). -/
theorem keptPads_asked (s : State) (p : Pin) (l : Level) (r : Response) : KeptPads s ((s.asked p l).deliver r) :=
  ⟨rfl, rfl, rfl⟩

/-- Settles O15: the command is one `read(p)` (`exec_pinRead`), and where an answer is listed it is the one given
(`answer_of_listed`). -/
theorem pinReadAnswersTheEnvironment : Obligations.PinReadAnswersTheEnvironment := by
  refine ⟨fun _ => rfl, fun p s => ⟨_, exec_pinRead p s, ?_⟩, fun _ _ _ => answer_of_listed⟩
  obtain ⟨htrace, hreads, hresponse, hready⟩ := emitted_play s [.ask p (s.answer 0)] (levelValue (s.answer 0))
  rw [expand_ask] at htrace
  rw [askCount_ask] at hreads
  have hword := hresponse.trans (congrArg (s.responses ++ [·]) (responseWord_levelValue (s.answer 0)))
  refine ⟨htrace, hword, hready, hreads, ?_, ?_, keptTransaction_play _ _ _, keptBuffer_play _ _ _,
    keptWorld_play _ _ _, ?_⟩
  · intro l hl
    obtain rfl := answer_of_listed (k := 0) hl
    exact ⟨htrace, hword⟩
  · rw [play_ask]
    exact keptPads_asked s p _ _
  · rw [play_ask]
    rfl

end Sys2Proof.Machine

/-! PROOFS. The family 41_protocol_engine.md: what each command of the engine emits, answers and leaves, and the table of
R118. -/

namespace Sys2Proof.Machine

/-! ### Results as values (R91) -/

theorem boolValue_acknowledged (ack : Level) : boolValue (acknowledged ack) = if ack = .low then 1 else 0 := by
  cases ack <;> rfl

theorem boolValue_decide (p : Prop) [Decidable p] : boolValue (decide p) = if p then 1 else 0 := by
  split
  next h => rw [decide_eq_true h]; rfl
  next h => rw [decide_eq_false h]; rfl

/-! ### The two ends of an engine command (R17, R118) -/

section Ends

variable {i : Instr} {s : State} {v : Value} {ls : List Letter}

/-- An engine command whose compact trace ends `HELD`. -/
theorem exec_engine_held (hd : s.drivable) (hb : body i s = .ok (v, s.play ls)) (hh : (s.play ls).held) :
    ∃ t, exec i s = .next t ∧ Emitted s t ls v ∧ t.held ∧ PinsOnly s t := by
  obtain ⟨t, ht, hemitted, hpins, -, hsda, hscl⟩ := exec_engine hd hb
  exact ⟨t, ht, hemitted, held_of_pads hsda hscl hh, hpins⟩

/-- An engine command whose compact trace leaves both pins released. -/
theorem exec_engine_released (hd : s.drivable) (hb : body i s = .ok (v, s.play ls)) (hr : (s.play ls).bothReleased) :
    ∃ t, exec i s = .next t ∧ Emitted s t ls v ∧ t.bothReleased ∧ PinsOnly s t := by
  obtain ⟨t, ht, hemitted, hpins, hcfg, hsda, hscl⟩ := exec_engine hd hb
  exact ⟨t, ht, hemitted, bothReleased_of_pads hcfg hsda hscl hr, hpins⟩

end Ends

/-! ### The commands (R110 to R116) -/

/-- Settles O19: the command is `initBus_run`, its value read by `boolValue_decide`. -/
theorem initializeChecksBothLines : Obligations.InitializeChecksBothLines := by
  refine ⟨rfl, fun s hd => ?_⟩
  rw [← boolValue_decide]
  exact exec_engine_released hd (body_of_run (initBus_run hd)) (play_initialize_released s _ _)

/-- Settles O20: the command is `start_run`, whose trace ends `HELD`. -/
theorem engStartSendsTheAddress : Obligations.EngStartSendsTheAddress := by
  refine ⟨fun _ => rfl, fun b s hd => ?_⟩
  rw [← boolValue_acknowledged]
  exact exec_engine_held hd (body_of_run (start_run b hd)) (play_start_held s b _)

/-- Settles O21: the command is `repStart_run`, whose trace ends `HELD`. -/
theorem engRepStartReleasesThenStarts : Obligations.EngRepStartReleasesThenStarts := by
  refine ⟨fun _ => rfl, fun b s hd => ?_⟩
  rw [← boolValue_acknowledged]
  exact exec_engine_held hd (body_of_run (repStart_run b hd)) (play_repStart_held s b _)

/-- The procedure of `ENG_START_WAIT` is the loop at its bound. -/
theorem body_engStartWait {b : Byte} {s t : State} {ok : Bool}
    (h : startAttempts b s.cfg.startWaitRetries.toNat s = .ok (ok, t)) :
    body (.engStartWait b) s = .ok (boolValue ok, t) :=
  body_of_run ((startWait_eq b s).trans h)

/-- Settles O22: the loop succeeds at its first acknowledged attempt (`startAttempts_success`), whose Start leaves the pins
`HELD`, or runs out (`startAttempts_failure`), and then the last Stop leaves them released. -/
theorem engStartWaitRetriesUpToItsBound : Obligations.EngStartWaitRetriesUpToItsBound := by
  refine ⟨fun _ => rfl, fun b s hd hbound => ⟨fun k hk hfail hlow => ?_, fun hfail => ?_⟩⟩
  · refine exec_engine_held hd (body_engStartWait (startAttempts_success b k _ hd hk hfail hlow)) ?_
    rw [play_append]
    exact play_start_held _ b .low
  · exact exec_engine_released hd (body_engStartWait (startAttempts_failure b _ hd hfail))
      (play_failedAttempts_released s b hbound)

/-- Settles O23: the command is `stop_run`, whose trace leaves the bus released. -/
theorem engStopReleasesTheBus : Obligations.EngStopReleasesTheBus :=
  ⟨rfl, fun s hd => exec_engine_released hd (body_of_run (v := fun _ => noValue) (stop_run hd))
    (play_stop_released s [])⟩

/-- Settles O24: the command is `writeByte_run`, whose trace ends `HELD`. -/
theorem engWriteShiftsTheByteOut : Obligations.EngWriteShiftsTheByteOut := by
  refine ⟨fun _ => rfl, fun b s hd => ?_⟩
  rw [← boolValue_acknowledged]
  exact exec_engine_held hd (body_of_run (writeByte_run b hd)) (play_write_held s b _)

/-- Settles O25: the command is `readByte_run`, whose trace ends `HELD`. -/
theorem engReadShiftsTheByteIn : Obligations.EngReadShiftsTheByteIn :=
  ⟨fun _ => rfl, fun last s hd => exec_engine_held hd (body_of_run (v := byteValue) (readByte_run last hd))
    (play_read_held s _ last)⟩

/-! ### The counts of a compact trace (R118) -/

theorem counts_append (ls ms : List Letter) : counts (ls ++ ms) = counts ls + counts ms := by
  simp only [counts, List.countP_append, List.count_append, Prod.mk_add_mk]

theorem counts_bitLetters (bit : Bool) : counts (bitLetters bit) = (3, 1, 0, 0) := by
  cases bit <;> rfl

/-- A data bit costs the same whether it is 1 or 0, so `n` of them cost `n` times as much. -/
theorem counts_sendLetters (b : Byte) (n : Nat) : counts (sendLetters b n) = (3 * n, n, 0, 0) := by
  induction n with
  | zero => rfl
  | succ n ih =>
    rw [sendLetters, counts_append, counts_bitLetters, ih]
    simp only [Prod.mk_add_mk, Prod.mk.injEq, and_true]
    omega

theorem writeLetters_eq (b : Byte) (ack : Level) :
    writeLetters b ack = sendLetters b 8 ++ [.relSda, .relScl, .half, .askSda ack, .lowScl, .half, .lowSda] := rfl

theorem counts_write (b : Byte) (ack : Level) : counts (writeLetters b ack) = (28, 8, 2, 1) := by
  rw [writeLetters_eq, counts_append, counts_sendLetters]
  rfl

theorem counts_start (b : Byte) (ack : Level) : counts (startLetters b ack) = (30, 9, 2, 1) := by
  rw [startLetters, counts_append, counts_write]
  rfl

theorem counts_repStart (b : Byte) (ack : Level) : counts (repStartLetters b ack) = (32, 10, 2, 1) := by
  rw [repStartLetters, counts_append, counts_start]
  rfl

theorem counts_stop : counts stopLetters = (3, 3, 0, 0) := rfl

/-- ACK and NACK cost the same. -/
theorem counts_read (sample : Nat → Level) (last : Bool) : counts (readLetters sample last) = (21, 8, 2, 8) := by
  cases last <;> rfl

theorem counts_failedAttempts (b : Byte) (n : Nat) : counts (failedAttempts b n) = (33 * n, 12 * n, 2 * n, n) := by
  induction n with
  | zero => rfl
  | succ n ih =>
    rw [failedAttempts_succ, counts_append, counts_append, counts_start, counts_stop, ih]
    simp only [Prod.mk_add_mk, Prod.mk.injEq]
    omega

/-- Settles O26: each row adds up the counts of the parts its compact trace is made of (`counts_append`). -/
theorem proceduresHaveTheCountsOfTheTable : Obligations.ProceduresHaveTheCountsOfTheTable := by
  refine ⟨fun _ _ => rfl, counts_start, counts_repStart, counts_stop, counts_write, counts_read, fun b k => ?_,
    counts_failedAttempts⟩
  rw [counts_append, counts_failedAttempts, counts_start]
  rfl

end Sys2Proof.Machine

/-! PROOFS. The family 42_transfer_controller.md: what each command of the Transfer Controller emits, answers, records and
leaves, that its pin activity does not depend on the answers, and the flag and the pins. -/

namespace Sys2Proof.Machine

/-! ### A controller command, said once (R130 to R134) -/

/-- The compact trace of a controller command from `s`; the other commands are not of this family and have none here. -/
def State.controllerLetters (s : State) : Instr → List Letter
  | .beginTransmission a => openLetters s.inTransmission (addrByte a rwWrite) (s.answer 0)
  | .write b => writeLetters b (s.answer 0)
  | .writeBytes _ payload => writesLetters payload s.answer
  | .endTransmission sendStop => if sendStop then stopLetters else []
  | .requestFrom a q i z sendStop =>
    requestLetters s.inTransmission a (clampQuantity s.cfg q).toNat i z sendStop s.answer
  | _ => []

/-- The quantity a `REQUEST_FROM` answers and leaves in `rx_valid` (R134 steps 6 and 8). -/
def State.receivedQuantity (s : State) (q z : BitVec 8) : BitVec 8 :=
  if s.answer (readAckIndex z) = .low then clampQuantity s.cfg q else 0

/-- What a controller command from `s` answers. -/
def State.controllerValue (s : State) : Instr → Value
  | .write _ => byteValue (if acknowledged (s.answer 0) then 1 else 0)
  | .writeBytes _ payload => byteValue (BitVec.ofNat 8 (ackCount payload.length s.answer))
  | .endTransmission _ => errValue s.lastError
  | .requestFrom _ q _ z _ => byteValue (s.receivedQuantity q z)
  | _ => noValue

/-- `s` with the Transaction State and the Receive Buffer as a controller command leaves them, and its pins not moved. -/
def State.recorded (s : State) : Instr → State
  | .beginTransmission _ => (s.setInTransmission true).setLastError (addressError (s.answer 0))
  | .write _ => s.setLastError (writeError s.lastError (s.answer 0))
  | .writeBytes _ payload => s.setLastError (errorAfterWrites s.lastError payload.length s.answer)
  | .endTransmission sendStop =>
    (s.setInTransmission (if sendStop then false else s.inTransmission)).setLastError .noError
  | .requestFrom _ q _ z sendStop =>
    ((((s.setInTransmission (if sendStop then false else s.inTransmission || z != 0)
      ).setLastError (addressError (s.answer (readAckIndex z)))
      ).setRxbuf (storedBytes 0 (clampQuantity s.cfg q).toNat (fun k => s.answer (readAckIndex z + 1 + k)) s.rxbuf)
      ).setRxValid (s.receivedQuantity q z)).setRxCursor 0
  | _ => s

theorem recorded_eq (s : State) (i : Instr) : s.recorded i = { s with
    inTransmission := (s.recorded i).inTransmission, lastError := (s.recorded i).lastError
    rxbuf := (s.recorded i).rxbuf, rxCursor := (s.recorded i).rxCursor, rxValid := (s.recorded i).rxValid } := by
  cases i <;> rfl

/-- The pins move as if nothing were recorded. -/
theorem recorded_play (s : State) (i : Instr) (ls : List Letter) : (s.recorded i).play ls = { s.play ls with
    inTransmission := (s.recorded i).inTransmission, lastError := (s.recorded i).lastError
    rxbuf := (s.recorded i).rxbuf, rxCursor := (s.recorded i).rxCursor, rxValid := (s.recorded i).rxValid } :=
  (congrArg (State.play · ls) (recorded_eq s i)).trans (play_other s _ _ _ _ _ ls)

/-- The procedure of a controller command plays the command's compact trace and records. -/
theorem body_controller {i : Instr} {s : State} (hi : isController i = true) (hw : i.wellFormed = true)
    (hd : s.drivable) : body i s = .ok (s.controllerValue i, (s.recorded i).play (s.controllerLetters i)) := by
  cases i with
  | beginTransmission a =>
    rw [State.recorded, play_setLastError, play_setInTransmission]
    exact body_of_run (v := fun _ => noValue) (beginTransmission_run a hd)
  | write b =>
    rw [State.recorded, play_setLastError]
    exact body_of_run (ctrlWrite_run b hd)
  | writeBytes count payload =>
    rw [State.recorded, play_setLastError]
    exact body_of_run (writeBytes_run count payload hd (beq_iff_eq.mp hw))
  | endTransmission sendStop =>
    rw [State.recorded, play_setLastError, play_setInTransmission]
    exact body_of_run (endTransmission_run sendStop hd)
  | requestFrom a q i z sendStop =>
    rw [State.recorded, play_setRxCursor, play_setRxValid, play_setRxbuf, play_setLastError, play_setInTransmission]
    exact body_of_run (requestFrom_run a q i z sendStop hd)
  | _ => cases hi

/-- Every controller command completes from a drivable state: this family's statements are read from it. -/
theorem exec_controller {i : Instr} {s : State} (hi : isController i = true) (hw : i.wellFormed = true)
    (hd : s.drivable) : ∃ t, exec i s = .next t ∧
      Completed s (s.recorded i) t (s.controllerLetters i) (s.controllerValue i) := by
  obtain ⟨t, ht, c⟩ := exec_completed hd (body_controller hi hw hd) (by rw [recorded_play])
  exact ⟨t, ht, { c with
    inTransmission := c.inTransmission.trans (play_inTransmission _ _)
    lastError := c.lastError.trans (play_lastError _ _)
    rxbuf := c.rxbuf.trans (play_rxbuf _ _)
    rxCursor := c.rxCursor.trans (play_rxCursor _ _)
    rxValid := c.rxValid.trans (play_rxValid _ _) }⟩

section Completed

variable {s u t : State} {ls : List Letter} {v : Value}

theorem completed_held (c : Completed s u t ls v) (h : (s.play ls).held) : t.held := held_of_pads c.sda c.scl h

theorem completed_bothReleased (c : Completed s u t ls v) (h : (s.play ls).bothReleased) : t.bothReleased :=
  bothReleased_of_pads c.cfg c.sda c.scl h

/-- A command without a compact trace leaves the pads alone. -/
theorem completed_keptPads (c : Completed s u t [] v) : KeptPads s t := ⟨c.sda, c.scl, c.latchDraws⟩

end Completed

/-! ### Results and recorded errors, read from the samples (R91, R130, R131, R160) -/

theorem addressError_eq (ack : Level) : addressError ack = if ack = .low then .noError else .nackOnAddress := by
  cases ack <;> rfl

/-- The first error wins (R168). -/
theorem writeError_eq (e : Err) (ack : Level) :
    writeError e ack = if ack = .high ∧ e = .noError then .nackOnData else e := by
  cases ack with
  | low => rfl
  | high => cases e <;> rfl

theorem byteValue_acknowledged (ack : Level) :
    byteValue (if acknowledged ack then 1 else 0) = if ack = .low then 1 else 0 := by
  cases ack <;> rfl

theorem errValue_eq_errNumber (e : Err) : errValue e = errNumber e := by
  cases e <;> rfl

theorem byteValue_eq_ofNat (b : BitVec 8) : byteValue b = BitVec.ofNat 16 b.toNat := by
  rw [← byteValue_ofNat b.isLt, BitVec.ofNat_toNat, BitVec.setWidth_eq]

theorem receivedQuantity_toNat (s : State) (q z : BitVec 8) : (s.receivedQuantity q z).toNat =
    if s.answer (readAckIndex z) = .low then (clampQuantity s.cfg q).toNat else 0 :=
  apply_ite BitVec.toNat _ _ _

theorem byteValue_receivedQuantity (s : State) (q z : BitVec 8) : byteValue (s.receivedQuantity q z) =
    if s.answer (readAckIndex z) = .low then BitVec.ofNat 16 (clampQuantity s.cfg q).toNat else 0 := by
  rw [byteValue_eq_ofNat, receivedQuantity_toNat]
  exact apply_ite (BitVec.ofNat 16) _ _ _

/-! ### BEGIN_TRANSMISSION, WRITE, WRITE_BYTES, END_TRANSMISSION (R130 to R133) -/

/-- Settles O28: the command is `exec_controller`, and the addressing ends `HELD`. -/
theorem beginTransmissionOpensAndRecords : Obligations.BeginTransmissionOpensAndRecords := by
  refine ⟨fun _ => rfl, fun a s hd => ?_⟩
  obtain ⟨t, ht, c⟩ := exec_controller (i := .beginTransmission a) rfl rfl hd
  rw [← addressError_eq]
  exact ⟨t, ht, c.emitted, c.inTransmission, c.lastError, completed_held c (play_open_held s _ _ _),
    ⟨c.rxbuf, c.rxCursor, c.rxValid⟩, c.latches, c.world⟩

/-- Settles O29: the command is `exec_controller`, and `writeError_eq` says which error wins. -/
theorem writeSendsAndRecordsTheFirstError : Obligations.WriteSendsAndRecordsTheFirstError := by
  refine ⟨fun _ => rfl, fun b s hd => ?_⟩
  obtain ⟨t, ht, c⟩ := exec_controller (i := .write b) rfl rfl hd
  rw [← byteValue_acknowledged, ← writeError_eq]
  exact ⟨t, ht, c.emitted, c.lastError, c.inTransmission, completed_held c (play_write_held s b _),
    ⟨c.rxbuf, c.rxCursor, c.rxValid⟩, c.latches, c.world⟩

/-- Settles O30: the command is `exec_controller`; with no byte its compact trace is empty, with some its last Write leaves
the pins `HELD`. -/
theorem writeBytesSendsAllAndCounts : Obligations.WriteBytesSendsAllAndCounts := by
  refine ⟨fun _ _ => rfl, fun count payload s hd hlen => ?_⟩
  obtain ⟨t, ht, c⟩ := exec_controller (i := .writeBytes count payload) rfl (beq_iff_eq.mpr hlen) hd
  have hcount : ackCount payload.length s.answer < 256 := (ackCount_le _ _).trans_lt (hlen ▸ count.isLt)
  rw [← hlen, ← byteValue_ofNat hcount]
  refine ⟨t, ht, c.emitted, c.lastError, c.inTransmission, fun hne => ?_, fun hzero => ?_,
    ⟨c.rxbuf, c.rxCursor, c.rxValid⟩, c.latches, c.world⟩
  · refine completed_held c (play_writes_held s payload _ ?_)
    rintro rfl
    exact hne (BitVec.eq_of_toNat_eq hlen.symm)
  · obtain rfl : payload = [] := List.eq_nil_of_length_eq_zero (by rw [hlen, hzero]; rfl)
    exact ⟨completed_keptPads c, c.irq⟩

/-- Settles O31: the command is `exec_controller`, whose compact trace is a Stop or empty. -/
theorem endTransmissionDeliversTheError : Obligations.EndTransmissionDeliversTheError := by
  refine ⟨fun _ => rfl, fun sendStop s hd => ?_⟩
  obtain ⟨t, ht, c⟩ := exec_controller (i := .endTransmission sendStop) rfl rfl hd
  rw [← errValue_eq_errNumber]
  refine ⟨t, ht, c.emitted, c.lastError, c.inTransmission, ?_, ?_,
    ⟨c.rxbuf, c.rxCursor, c.rxValid⟩, c.latches, c.world⟩
  · rintro rfl
    exact completed_bothReleased c (play_stop_released s [])
  · rintro rfl
    exact ⟨completed_keptPads c, c.irq⟩

/-! ### REQUEST_FROM (R134) -/

theorem play_request_released (s : State) (x : Bool) (a : BitVec 7) (q : Nat) (i : BitVec 32) (z : BitVec 8)
    (f : Nat → Level) : (s.play (requestLetters x a q i z true f)).bothReleased :=
  play_stop_released s _

/-- An entry below the quantity holds its eight samples (R134 step 5). -/
theorem storedBytes_below {n j : Nat} (f : Nat → Level) {buf : List Byte} (hj : j < n) (hb : j < buf.length) :
    (storedBytes 0 n f buf)[j]? = some (sampledByte (fun k => f (8 * j + k))) := by
  rw [storedBytes_getElem?, if_pos ⟨Nat.zero_le j, by omega, hb⟩, Nat.sub_zero]

/-- An entry at or above the quantity is the old one. -/
theorem storedBytes_above {n j : Nat} (f : Nat → Level) (buf : List Byte) (hj : n ≤ j) :
    (storedBytes 0 n f buf)[j]? = buf[j]? := by
  rw [storedBytes_getElem?, if_neg (by omega)]

/-- Settles O32: the command is `exec_controller`; what it stores is `storedBytes`, what it answers `receivedQuantity`. -/
theorem requestFromReadsIntoTheBuffer : Obligations.RequestFromReadsIntoTheBuffer := by
  refine ⟨fun _ _ _ _ _ => rfl, fun a q i z sendStop s hd => ?_⟩
  obtain ⟨t, ht, c⟩ := exec_controller (i := .requestFrom a q i z sendStop) rfl rfl hd
  rw [← clampQuantity_toNat, ← byteValue_receivedQuantity, ← receivedQuantity_toNat, ← addressError_eq]
  have hbuf : t.rxbuf = storedBytes 0 (clampQuantity s.cfg q).toNat
    (fun k => s.answer (readAckIndex z + 1 + k)) s.rxbuf := c.rxbuf
  refine ⟨t, ht, c.emitted, c.lastError, congrArg BitVec.toNat c.rxValid, c.rxCursor, c.inTransmission, ?_,
    fun j hj hb => ?_, fun j hj => ?_, ?_, ?_, c.latches, c.world⟩
  · rw [hbuf, storedBytes_length]
  · rw [hbuf, storedBytes_below _ hj hb]
  · rw [hbuf, storedBytes_above _ _ hj]
  · rintro rfl
    exact completed_bothReleased c (play_request_released s _ _ _ _ _ _)
  · rintro rfl
    exact completed_held c (play_request_held s _ _ _ _ _ _)

/-- Settles O36: `REQUEST_FROM` without a stop ends `HELD`, and with `Z = 0` it does not set the flag. -/
theorem requestWithoutStopLeavesTheFlagClear : Obligations.RequestWithoutStopLeavesTheFlagClear := by
  intro a q i s hd hflag
  obtain ⟨t, ht, c⟩ := exec_controller (i := .requestFrom a q i 0 false) rfl rfl hd
  have hclear : t.inTransmission = (s.inTransmission || (0 : BitVec 8) != 0) := c.inTransmission
  rw [hflag] at hclear
  exact ⟨t, ht, completed_held c (play_request_held s _ _ _ _ _ _), hclear⟩

/-! ### The answers do not change what happens on the pins (R136) -/

/-- A compact trace with its answers hidden moves the pads as the trace itself does. -/
theorem keptPads_play_hideAnswer {s t : State} (hc : t.cfg = s.cfg) (h : KeptPads s t) (ls : List Letter) :
    KeptPads (s.play ls) (t.play (ls.map Letter.hideAnswer)) := by
  induction ls generalizing s t with
  | nil => exact h
  | cons l ls ih =>
    obtain ⟨hsda, hscl, hdraws⟩ := h
    rw [List.map_cons, play_cons, play_cons]
    refine ih ?_ ?_
    · cases l <;> exact hc
    · cases l <;> constructor <;>
        simp [Letter.hideAnswer, Letter.play, State.released, State.drivenLow, State.asked, hc, hsda, hscl, hdraws]

/-- Two compact traces that are one with their answers hidden move the pads alike. -/
theorem keptPads_play {s t : State} (hc : t.cfg = s.cfg) (h : KeptPads s t) {ls ms : List Letter}
    (hhide : ls.map Letter.hideAnswer = ms.map Letter.hideAnswer) : KeptPads (s.play ls) (t.play ms) := by
  have hls := keptPads_play_hideAnswer hc h ls
  have hms := keptPads_play_hideAnswer (s := t) rfl ⟨rfl, rfl, rfl⟩ ms
  rw [hhide] at hls
  exact ⟨hms.sda.symm.trans hls.sda, hms.scl.symm.trans hls.scl, hms.latchDraws.symm.trans hls.latchDraws⟩

/-- A controller command's compact traces under two lists of answers are one, but for the answers in them. -/
theorem hide_controllerLetters (s : State) (f g : List Level) (i : Instr) :
    (({ s with answers := f } : State).controllerLetters i).map Letter.hideAnswer =
      (({ s with answers := g } : State).controllerLetters i).map Letter.hideAnswer := by
  cases i with
  | beginTransmission a => exact hide_open _ _ _ _
  | write b => exact hide_write b _ _
  | writeBytes count payload => exact hide_writes payload _ _
  | requestFrom a q i z sendStop => exact hide_request _ a _ i z sendStop _ _
  | _ => rfl

theorem recorded_inTransmission_answers (s : State) (f g : List Level) (i : Instr) :
    (({ s with answers := f } : State).recorded i).inTransmission =
      (({ s with answers := g } : State).recorded i).inTransmission := by
  cases i <;> rfl

/-- Settles O34: the two commands play compact traces that are one with the answers hidden (`hide_controllerLetters`). -/
theorem controllerTraceIsIndependentOfTheAnswers : Obligations.ControllerTraceIsIndependentOfTheAnswers := by
  intro i s f g hi hw hd
  obtain ⟨t, ht, ct⟩ := exec_controller (s := { s with answers := f }) hi hw hd
  obtain ⟨u, hu, cu⟩ := exec_controller (s := { s with answers := g }) hi hw hd
  have hhide := hide_controllerLetters s f g i
  have hpads := keptPads_play (s := { s with answers := f }) (t := { s with answers := g }) rfl ⟨rfl, rfl, rfl⟩ hhide
  refine ⟨t, u, ht, hu, ?_, ?_, ?_, ?_, ?_⟩
  · rw [ct.emitted.trace, cu.emitted.trace, List.map_append, List.map_append, expand_hideAnswer, expand_hideAnswer,
      hhide]
  · rw [ct.sda, cu.sda, hpads.sda]
  · rw [ct.scl, cu.scl, hpads.scl]
  · rw [ct.emitted.reads, cu.emitted.reads, ← askCount_hideAnswer, hhide, askCount_hideAnswer]
  · rw [ct.inTransmission, cu.inTransmission, recorded_inTransmission_answers s f g]

/-! ### The flag and the pins (R139, R194) -/

theorem flagMatchesPins_of_held {s : State} (hf : s.inTransmission = true) (hp : s.held) : s.flagMatchesPins :=
  ⟨fun _ => hp, fun h => absurd (hf.symm.trans h) Bool.noConfusion⟩

theorem flagMatchesPins_of_bothReleased {s : State} (hf : s.inTransmission = false) (hp : s.bothReleased) :
    s.flagMatchesPins :=
  ⟨fun h => absurd (hf.symm.trans h) Bool.noConfusion, fun _ => idle_of_bothReleased hp⟩

theorem flagMatchesPins_of_kept {s t : State} (hf : t.inTransmission = s.inTransmission) (hp : KeptPads s t)
    (h : s.flagMatchesPins) : t.flagMatchesPins := by
  rw [State.flagMatchesPins, hf, State.held, State.idle, hp.sda, hp.scl]
  exact h

/-- Settles O35: a command that ends `HELD` ends with the flag set, one that stops ends with it clear, and one with no pin
activity leaves both. -/
theorem controllerKeepsTheFlagInStepWithThePins : Obligations.ControllerKeepsTheFlagInStepWithThePins := by
  intro i s t hi hw hd hcaller hmatch ht
  obtain ⟨t', ht', c⟩ := exec_controller hi hw hd
  obtain rfl : t = t' := Host.Outcome.next.inj (ht.symm.trans ht')
  cases i with
  | beginTransmission a => exact flagMatchesPins_of_held c.inTransmission (completed_held c (play_open_held s _ _ _))
  | write b =>
    exact flagMatchesPins_of_held (c.inTransmission.trans hcaller) (completed_held c (play_write_held s b _))
  | writeBytes count payload =>
    cases payload with
    | nil => exact flagMatchesPins_of_kept (s := s) c.inTransmission (completed_keptPads c) hmatch
    | cons b bs =>
      exact flagMatchesPins_of_held (c.inTransmission.trans hcaller)
        (completed_held c (play_writes_held s _ _ (List.cons_ne_nil b bs)))
  | endTransmission sendStop =>
    cases sendStop with
    | true => exact flagMatchesPins_of_bothReleased c.inTransmission (completed_bothReleased c (play_stop_released s []))
    | false => exact flagMatchesPins_of_kept (s := s) c.inTransmission (completed_keptPads c) hmatch
  | requestFrom a q ia z sendStop =>
    cases sendStop with
    | true =>
      exact flagMatchesPins_of_bothReleased c.inTransmission
        (completed_bothReleased c (play_request_released s _ _ _ _ _ _))
    | false =>
      have hset : (s.inTransmission || z != 0) = true := by
        simpa [callerMayIssue, or_comm] using hcaller
      exact flagMatchesPins_of_held (c.inTransmission.trans hset) (completed_held c (play_request_held s _ _ _ _ _ _))
  | _ => cases hi

end Sys2Proof.Machine

/-! PROOFS. The family 43_stream_wrapper.md: what each command of the stream answers, and where it leaves the cursor. -/

namespace Sys2Proof.Machine

/-! ### The four commands (R150 to R153) -/

theorem exec_available (s : State) :
    exec .available s = .next (s.deliver (responseWord (byteValue (s.rxValid - s.rxCursor)))) :=
  exec_of_body rfl

theorem exec_flush (s : State) : exec .flush s = .next (s.deliver (responseWord noValue)) := exec_of_body rfl

theorem exec_read_of_le {s : State} (h : s.rxValid ≤ s.rxCursor) :
    exec .read s = .next (s.deliver (responseWord noData)) :=
  exec_of_body ((streamRead_run s).trans (if_pos h))

theorem exec_read_of_lt {s : State} (h : s.rxCursor < s.rxValid) :
    exec .read s = .next ((s.setRxCursor (s.rxCursor + 1)).deliver (responseWord (byteValue s.byteAtCursor))) :=
  exec_of_body ((streamRead_run s).trans (if_neg (BitVec.not_le.mpr h)))

theorem exec_peek_of_le {s : State} (h : s.rxValid ≤ s.rxCursor) :
    exec .peek s = .next (s.deliver (responseWord noData)) :=
  exec_of_body ((streamPeek_run s).trans (if_pos h))

theorem exec_peek_of_lt {s : State} (h : s.rxCursor < s.rxValid) :
    exec .peek s = .next (s.deliver (responseWord (byteValue s.byteAtCursor))) :=
  exec_of_body ((streamPeek_run s).trans (if_neg (BitVec.not_le.mpr h)))

/-! ### The answers as response words (R90, R91) -/

theorem byteAtCursor_of_getElem? {s : State} {v : Byte} (h : s.rxbuf[s.rxCursor.toNat]? = some v) :
    s.byteAtCursor = v := by
  rw [State.byteAtCursor, List.getD_eq_getElem?_getD, h, Option.getD_some]

/-- The sentinel -1 has 16 bits in the response: it is not extended by its sign. -/
theorem responseWord_noData : responseWord noData = 0x0000FFFF := rfl

/-- The 8-bit subtraction of `available()` does not underflow where the cursor is at most the valid length. -/
theorem responseWord_byteValue_sub {valid cursor : BitVec 8} (h : cursor ≤ valid) :
    responseWord (byteValue (valid - cursor)) = BitVec.ofNat 32 (valid.toNat - cursor.toNat) := by
  rw [responseWord_byteValue, ← BitVec.toNat_sub_of_le h, BitVec.ofNat_toNat]

/-! ### The obligations -/

/-- Settles O38: the command is `exec_available`, whose difference does not underflow (`responseWord_byteValue_sub`). -/
theorem availableCountsUnreadBytes : Obligations.AvailableCountsUnreadBytes := by
  refine ⟨rfl, fun s h => ?_⟩
  rw [exec_available, responseWord_byteValue_sub h]
  rfl

/-- Settles O39: past the valid bytes the command is `exec_read_of_le`, below them `exec_read_of_lt`. -/
theorem readTakesTheByteAtTheCursor : Obligations.ReadTakesTheByteAtTheCursor := by
  refine ⟨rfl, fun s h => ?_, fun s v h hv => ?_⟩
  · rw [exec_read_of_le h, responseWord_noData]
    rfl
  · rw [exec_read_of_lt h, byteAtCursor_of_getElem? hv, responseWord_byteValue]
    rfl

/-- Settles O40: past the valid bytes the command is `exec_peek_of_le`, below them `exec_peek_of_lt`. -/
theorem peekShowsTheByteAtTheCursor : Obligations.PeekShowsTheByteAtTheCursor := by
  refine ⟨rfl, fun s h => ?_, fun s v h hv => ?_⟩
  · rw [exec_peek_of_le h, responseWord_noData]
    rfl
  · rw [exec_peek_of_lt h, byteAtCursor_of_getElem? hv, responseWord_byteValue]
    rfl

/-- Settles O41: the command is `exec_flush`. -/
theorem flushHasNoEffect : Obligations.FlushHasNoEffect := ⟨rfl, exec_flush⟩

/-- A command of the stream completes from every state; it sets the cursor at most, and only `READ` moves it. -/
theorem exec_stream {i : Instr} (hi : isStream i = true) (s : State) :
    ∃ c r, exec i s = .next ((s.setRxCursor c).deliver r) ∧ (i ≠ .read → c = s.rxCursor) := by
  cases i with
  | available => exact ⟨s.rxCursor, _, exec_available s, fun _ => rfl⟩
  | flush => exact ⟨s.rxCursor, _, exec_flush s, fun _ => rfl⟩
  | peek =>
    by_cases h : s.rxValid ≤ s.rxCursor
    · exact ⟨s.rxCursor, _, exec_peek_of_le h, fun _ => rfl⟩
    · exact ⟨s.rxCursor, _, exec_peek_of_lt (BitVec.not_le.mp h), fun _ => rfl⟩
  | read =>
    by_cases h : s.rxValid ≤ s.rxCursor
    · exact ⟨s.rxCursor, _, exec_read_of_le h, fun _ => rfl⟩
    · exact ⟨s.rxCursor + 1, _, exec_read_of_lt (BitVec.not_le.mp h), absurd rfl⟩
  | _ => cases hi

/-- Settles O48: `exec_stream`. -/
theorem streamCommandsHaveNoPinActivity : Obligations.StreamCommandsHaveNoPinActivity := by
  intro i s hi
  obtain ⟨c, r, hexec, hcursor⟩ := exec_stream hi s
  exact ⟨_, r, hexec, rfl, hcursor⟩

end Sys2Proof.Machine

/-! PROOFS. The family 70_reset_and_hazards.md: power-on and the reset event. -/

namespace Sys2Proof.Machine

/-! ### The reset values (R40, R185, R186) -/

/-- Power-on, with any parameters, legal or not. -/
theorem atReset_resetWith (c : Config) : (State.resetWith c).AtReset where
  inTransmission := rfl
  lastError := rfl
  capacity := List.length_replicate
  rxCursor := rfl
  rxValid := rfl
  sda := rfl
  scl := rfl
  ready := rfl

/-- A reset event gives every element of R40 the value power-on gives it, whatever the state before, a busy one too. -/
theorem atReset_resetBlock (s : State) (rest : List HostInput) : (s.resetBlock rest).AtReset :=
  { atReset_resetWith s.cfg with }

/-- Settles O1: a block just powered on waits, for nothing is offered to it (`step_wait`); a reset event's step is
`step_reset`, and what it leaves alone is read off `resetBlock`. -/
theorem resetPutsEveryElementAtItsValue : Obligations.ResetPutsEveryElementAtItsValue :=
  ⟨fun c => ⟨atReset_resetWith c, fun hw => step_wait hw rfl⟩,
    fun s rest hw ho => ⟨s.resetBlock rest, step_reset hw ho, atReset_resetBlock s rest, s.resetBlock_cfg rest,
      s.resetBlock_irq rest, s.resetBlock_trace rest, s.resetBlock_responses rest, s.resetBlock_offered rest⟩⟩

end Sys2Proof.Machine
